-- ==== Sys2Proof/Word.lean ====
section
/-! DEFINITION. The two machine word types: the 32-bit register value and the byte (00_scope.md R8). -/

namespace Sys2Proof

/-- A register value or bus word: `REG_W` = 32 bits, unsigned (R6, R8). -/
abbrev Word := BitVec 32

/-- A byte of DMEM (R8). -/
abbrev Byte := BitVec 8

end Sys2Proof
end

