-- ==== Sys2Proof/Config.lean ====
section
/-! DEFINITION. The parameters of 00_scope.md R6 at the values this hardware takes, and the free values
the spec leaves open (93_implementation_defined.md U1, U2). -/

namespace Sys2Proof.Config

/-- `NBLK`: blocks per codeword (R6). -/
def nblk : Nat := 3

/-- `ORDER_W`: width of the order tag in bytes (R6). -/
def orderW : Nat := 1

/-- `ORDER_A`: order byte of data block A (R6). -/
def orderA : Byte := 1

/-- `ORDER_B`: order byte of data block B (R6). -/
def orderB : Byte := 2

/-- `LEN_W`: width of the length field in bytes; 4 is the normative value (R3, R6; log 14). -/
def lenW : Nat := 4

/-- `HDR`: header width in bytes (R6). -/
def hdr : Nat := orderW + lenW

/-- `CK_W`: checksum width in bytes (R6). -/
def ckW : Nat := 4

/-- `CK_ALG` as CONFIG reports it: 0 is Adler-32 (R6, 10_state.md R32). -/
def ckAlg : Nat := 0

/-- `k` in `DMEM_SIZE = 2^k` (R7). -/
def dmemLog2 : Nat := 16

/-- `DMEM_SIZE`: bytes of data memory (R6). -/
def dmemSize : Nat := 2 ^ dmemLog2

/-- `MAXLEN`: the largest value the length field holds (R6). -/
def maxLen : Nat := 2 ^ (8 * lenW) - 1

/-- The ERF-CMD version CONFIG reports (R2, 10_state.md R32). -/
def version : Nat := 1

@[simp] theorem nblk_val : nblk = 3 := rfl
@[simp] theorem orderW_val : orderW = 1 := rfl
@[simp] theorem orderA_val : orderA = 1 := rfl
@[simp] theorem orderB_val : orderB = 2 := rfl
@[simp] theorem lenW_val : lenW = 4 := rfl
@[simp] theorem hdr_val : hdr = 5 := rfl
@[simp] theorem ckW_val : ckW = 4 := rfl
@[simp] theorem dmemSize_val : dmemSize = 65536 := rfl
@[simp] theorem maxLen_val : maxLen = 4294967295 := rfl

/-- FREE VALUE. The byte DMEM holds at an address nothing has written since power-on: "After power-on
every DMEM byte is unspecified (a model draws each byte once; it then keeps its value until written)"
(70_reset_and_hazards.md R233, U1; log 2). -/
opaque powerOnByte : Nat → BitVec 8

/-- FREE VALUE. The byte an aborting hardware reset leaves at a destination byte of the aborted command:
the first argument counts the aborts, the second is the address (70_reset_and_hazards.md R233, U2;
logs 3 and 4). -/
opaque abortByte : Nat → Nat → BitVec 8

end Sys2Proof.Config
end

