-- ==== Sys2Proof/Machine/Bytes.lean ====
section
/-! DEFINITION. Pure functions on byte sequences: the big-endian codec (00_scope.md R10), the bytewise XOR (R9) and
the Adler-32 checksum (40_framer.md R100). -/

namespace Sys2Proof.Machine

/-- `BE_N(v)`: the `N`-byte sequence of `v`, most significant byte first (R10). -/
def beBytes : (n v : Nat) → List Byte
  | 0, _ => []
  | n + 1, v => BitVec.ofNat 8 (v >>> (8 * n)) :: beBytes n v

/-- `rdBE_N(s)`: the sum over `i` of `s[i] * 2^(8*(N-1-i))` (R10). -/
def beValue : List Byte → Nat
  | [] => 0
  | b :: rest => b.toNat * 2 ^ (8 * rest.length) + beValue rest

/-- `a ⊕ b` for two sequences of equal length (R9, 41_codec.md R150). -/
def xorBytes (a b : List Byte) : List Byte := List.zipWith (· ^^^ ·) a b

/-- `zeros(n)` (R9). -/
def zeros (n : Nat) : List Byte := List.replicate n 0

/-- The modulus of Adler-32 (R100). -/
def adlerModulus : Nat := 65521

/-- One byte of the loop of R100 on the pair `(s1, s2)`. -/
def adlerStep (s : Nat × Nat) (b : Byte) : Nat × Nat :=
  let s1 := (s.1 + b.toNat) % adlerModulus
  (s1, (s.2 + s1) % adlerModulus)

/-- `Adler32(s)` (R100). -/
def adler32 (s : List Byte) : Nat :=
  let p := s.foldl adlerStep (1, 0)
  p.2 * 65536 + p.1

end Sys2Proof.Machine
end

