-- ==== Sys2Proof/Machine/Block.lean ====
section
/-! DEFINITION. The block format and its pure functions: Validate, Seal, Frame (20_memory.md R55, 40_framer.md
R102-R104), Encode (41_codec.md R160), and Decode with its classification and decision table (R170-R175). -/

namespace Sys2Proof.Machine

/-- `blk[0 .. L - CK_W)`: every byte but the checksum field (20_memory.md R55). -/
def coveredRegion (blk : List Byte) : List Byte := blk.take (blk.length - Config.ckW)

/-- `blk[L - CK_W .. L)`: the trailing checksum field (R55). -/
def checksumField (blk : List Byte) : List Byte := blk.drop (blk.length - Config.ckW)

/-- `rdBE_LEN_W(blk[1 .. HDR))`: the declared length in a header (R55). -/
def declaredLength (blk : List Byte) : Nat := beValue ((blk.drop Config.orderW).take Config.lenW)

/-- `blk[0]`: the order byte (R55). -/
def orderByte (blk : List Byte) : Byte := blk.headD 0

/-- `CAP = L - HDR - CK_W`: the largest payload slice of a block of length `L` (R55). -/
def capacity (L : Nat) : Nat := L - Config.hdr - Config.ckW

/-- `blk[HDR .. HDR + n)`: the first `n` payload bytes of a block (R55). -/
def payloadSlice (blk : List Byte) (n : Nat) : List Byte := (blk.drop Config.hdr).take n

/-- What `Validate` returns (40_framer.md R102). -/
structure Validation where
  order : Byte
  declared : Nat
  good : Bool
  comp : Nat
  deriving DecidableEq, Repr

/-- `Validate(blk)` (40_framer.md R102). -/
def validateBlock (blk : List Byte) : Validation :=
  if blk.length < Config.hdr + Config.ckW then
    { order := 0, declared := 0, good := false, comp := 0 }
  else
    { order := orderByte blk
      declared := declaredLength blk
      good := adler32 (coveredRegion blk) == beValue (checksumField blk)
      comp := adler32 (coveredRegion blk) }

/-- `Seal(c)` (40_framer.md R103). -/
def sealRegion (c : List Byte) : List Byte := c ++ beBytes Config.ckW (adler32 c)

/-- `Frame(ord, p, L)` (40_framer.md R104). -/
def frameBlock (ord : Byte) (p : List Byte) (L : Nat) : List Byte :=
  sealRegion ([ord] ++ beBytes Config.lenW p.length ++ p ++ zeros (L - Config.ckW - Config.hdr - p.length))

/-- `lenA = floor(n / 2)` (41_codec.md R160). -/
def halfA (n : Nat) : Nat := n / 2

/-- `lenB = n - lenA` (R160). -/
def halfB (n : Nat) : Nat := n - halfA n

/-- `L = lenB + HDR + CK_W`: the common block length for a payload of `n` bytes (R160). -/
def blockLength (n : Nat) : Nat := halfB n + Config.hdr + Config.ckW

/-- The three blocks of a codeword. -/
structure Codeword where
  blkA : List Byte
  blkB : List Byte
  blkX : List Byte
  deriving DecidableEq, Repr

/-- `Encode(p)` (41_codec.md R160). -/
def encodePayload (p : List Byte) : Codeword :=
  let L := blockLength p.length
  let blkA := frameBlock Config.orderA (p.take (halfA p.length)) L
  let blkB := frameBlock Config.orderB (p.drop (halfA p.length)) L
  { blkA, blkB, blkX := sealRegion (xorBytes (coveredRegion blkA) (coveredRegion blkB)) }

/-- A logical block identity (00_scope.md section 5). -/
inductive Role where
  | a
  | b
  | x
  deriving DecidableEq, Repr

/-- One value for each of DECODE's slots 0, 1, 2. -/
structure Triple (α : Type) where
  s0 : α
  s1 : α
  s2 : α
  deriving DecidableEq, Repr

/-- The value of slot `i`. -/
def Triple.get {α : Type} (t : Triple α) : Fin 3 → α
  | 0 => t.s0
  | 1 => t.s1
  | 2 => t.s2

/-- A function applied in every slot. -/
def Triple.map {α β : Type} (f : α → β) (t : Triple α) : Triple β := ⟨f t.s0, f t.s1, f t.s2⟩

/-- The three values in slot order. -/
def Triple.toList {α : Type} (t : Triple α) : List α := [t.s0, t.s1, t.s2]

/-- The role a good block claims by its order byte: A if 1, B if 2, X for every other value (41_codec.md R170). -/
def claimedRole (order : Byte) : Role :=
  if order = Config.orderA then .a else if order = Config.orderB then .b else .x

/-- The claim of a slot; "A bad slot claims no role" (41_codec.md R170). -/
def claimOf (v : Validation) : Option Role := if v.good then some (claimedRole v.order) else none

/-- Why DECODE failed, RES3 (41_codec.md R176). -/
inductive Cause where
  | lengthsDiffer
  | fewGood
  | roleConflict
  | beyondCapacity
  | outOfRange
  | overlapsSlot
  deriving DecidableEq, Repr

/-- The one role of {A, B, X} that no listed slot claims, when two distinct ones are listed (41_codec.md R171). -/
def missingRole (claimed : List Role) : Role :=
  if Role.a ∉ claimed then .a else if Role.b ∉ claimed then .b else .x

/-- The claims of the good slots, in slot order. -/
def goodClaims (v : Triple Validation) : List Role := (v.map claimOf).toList.filterMap id

/-- `Classify(v0, v1, v2)` (41_codec.md R171). -/
def classify (v : Triple Validation) : Except Cause (Triple Role) :=
  if (goodClaims v).length < 2 then .error .fewGood
  else if ¬ (goodClaims v).Nodup then .error .roleConflict
  else .ok (v.map fun vi => (claimOf vi).getD (missingRole (goodClaims v)))

/-- The slot that holds a role under a role assignment. -/
def slotOf (role : Triple Role) (r : Role) : Fin 3 :=
  if role.s0 = r then 0 else if role.s1 = r then 1 else 2

/-- A row of the decision table of 41_codec.md R172: the two lengths, the sequences the two payload slices are cut from,
and the broken slot with its role. -/
structure Recovery where
  lenA : Nat
  lenB : Nat
  fromA : List Byte
  fromB : List Byte
  broken : Option (Fin 3 × Role)
  deriving DecidableEq, Repr

/-- The decision table of 41_codec.md R172. The reconstructed block is not validated (R173), and X is not examined on the
fast path (R182). -/
def recover (blk : Triple (List Byte)) (v : Triple Validation) (role : Triple Role) : Recovery :=
  let slotA := slotOf role .a
  let slotB := slotOf role .b
  let slotX := slotOf role .x
  if ¬ (v.get slotB).good then
    let r := xorBytes (coveredRegion (blk.get slotA)) (coveredRegion (blk.get slotX))
    { lenA := (v.get slotA).declared, lenB := declaredLength r
      fromA := blk.get slotA, fromB := r, broken := some (slotB, .b) }
  else if ¬ (v.get slotA).good then
    let r := xorBytes (coveredRegion (blk.get slotB)) (coveredRegion (blk.get slotX))
    { lenA := declaredLength r, lenB := (v.get slotB).declared
      fromA := r, fromB := blk.get slotB, broken := some (slotA, .a) }
  else
    { lenA := (v.get slotA).declared, lenB := (v.get slotB).declared
      fromA := blk.get slotA, fromB := blk.get slotB
      broken := if (v.get slotX).good then none else some (slotX, .x) }

/-- What a successful Decode returns (41_codec.md R175), with the payload's two lengths. -/
structure Decoded where
  lenA : Nat
  lenB : Nat
  payload : List Byte
  broken : Option (Fin 3 × Role)
  deriving DecidableEq, Repr

/-- The length check of 41_codec.md R174 and the payload of R172. -/
def finishDecode (L : Nat) (r : Recovery) : Except Cause Decoded :=
  if r.lenA > capacity L ∨ r.lenB > capacity L then .error .beyondCapacity
  else .ok
    { lenA := r.lenA, lenB := r.lenB
      payload := payloadSlice r.fromA r.lenA ++ payloadSlice r.fromB r.lenB
      broken := r.broken }

/-- `Decode(b0, b1, b2)` for three byte sequences of one length `L` (41_codec.md R175). -/
def decodeBlocks (L : Nat) (blk : Triple (List Byte)) : Except Cause Decoded :=
  match classify (blk.map validateBlock) with
  | .error c => .error c
  | .ok role => finishDecode L (recover blk (blk.map validateBlock) role)

end Sys2Proof.Machine
end

