-- ==== Sys2Proof/Syntax.lean ====
section
/-! DEFINITION. The command set (30_encoding.md R74) and the host's assembly (R76, R77). -/

namespace Sys2Proof

/-- The ten commands of 30_encoding.md R74. "Operands are not in the command word" (R72): a command has
no field of its own, its operands stand in ARG registers. -/
inductive Instr where
  | nop        -- 0x00, R110
  | wruint     -- 0x01, R115
  | rduint     -- 0x02, R118
  | cksum      -- 0x03, R120
  | frame      -- 0x04, R125
  | sealBlock  -- 0x05 SEAL, R130
  | validate   -- 0x06, R135
  | xor        -- 0x08, R155
  | encode     -- 0x09, R165
  | decode     -- 0x0A, R180
  deriving DecidableEq, Repr

/-- The width of a host access; the interface has words only (20_memory.md R60). -/
inductive AccessWidth where
  | byte
  | half
  | word
  deriving DecidableEq, Repr

/-- One host action (30_encoding.md R76). An offset is relative to the register window's base; only its
bits [11:0] are decoded (10_state.md R30). -/
inductive HostOp where
  /-- `wr REG, imm`: the bus transaction `(W, offset, data)`. -/
  | wr (width : AccessWidth) (offset : Word) (data : Word)
  /-- `rd REG`: the bus transaction `(R, offset)`. -/
  | rd (width : AccessWidth) (offset : Word)
  /-- `wait`: read STATUS repeatedly until `BUSY = 0`. -/
  | wait
  deriving DecidableEq, Repr

/-- The pseudo-instructions of 30_encoding.md R77 beside the base instructions. -/
inductive HostPseudo where
  /-- A base instruction of R76. -/
  | base (op : HostOp)
  /-- `MNEMONIC v0, v1, ..., vk`: a command with its operands in ARG order. -/
  | command (i : Instr) (operands : List Word)
  /-- `poke addr, b0, b1, ..., bm`. -/
  | poke (addr : Word) (bytes : List Byte)
  /-- `poke addr, "text"`. -/
  | pokeText (addr : Word) (text : String)
  /-- `peek addr, n`. -/
  | peek (addr : Word) (n : Nat)
  /-- `ack`. -/
  | ack
  deriving DecidableEq, Repr

end Sys2Proof
end

