-- ==== Sys2Proof/WellFormed.lean ====
section
/-! DEFINITION. Well-formedness of commands, command words, host accesses and host assembly. -/

namespace Sys2Proof

/-- Every command is well formed: it has no operand field that could be out of range (30_encoding.md R72). -/
abbrev Instr.WellFormed (_ : Instr) : Prop := True

/-- The ten assigned opcodes of 30_encoding.md R74. -/
def assignedOpcodes : List Nat := [0x00, 0x01, 0x02, 0x03, 0x04, 0x05, 0x06, 0x08, 0x09, 0x0A]

/-- "A word `w` is a legal command iff `w[31:8] = 0` and `w[7:0]` is one of the ten opcodes" (30_encoding.md
R71), said of the word as a number and without the decoder. -/
abbrev LegalWord (w : Word) : Prop := w.toNat / 256 = 0 ∧ w.toNat % 256 ∈ assignedOpcodes

/-- A host access moves exactly 32 bits; a narrower one is outside the interface (20_memory.md R60). -/
abbrev HostOp.WellFormed : HostOp → Prop
  | .wr width _ _ => width = .word
  | .rd width _ => width = .word
  | .wait => True

/-- How many operands a command reads: ARG0 up to one less than this (30_encoding.md R72). -/
def operandCount : Instr → Nat
  | .nop => 0
  | .wruint => 2
  | .rduint => 1
  | .cksum => 2
  | .frame => 5
  | .sealBlock => 2
  | .validate => 2
  | .xor => 4
  | .encode => 5
  | .decode => 7

/-- A line of host assembly: a command has one value for each operand it reads, and names no other ("A command
pseudo-instruction writes only the ARG registers its command reads", 30_encoding.md R77). -/
abbrev HostPseudo.WellFormed : HostPseudo → Prop
  | .base op => op.WellFormed
  | .command i operands => operands.length = operandCount i
  | .poke _ _ => True
  | .pokeText _ text => ∀ c ∈ text.toList, c.toNat < 128
  | .peek _ _ => True
  | .ack => True

end Sys2Proof
end

