-- ==== Sys2Proof/Decode.lean ====
section
/-! DEFINITION. Decoding and encoding of the command word, format CMD32 (30_encoding.md R70, R71, R74, R75). -/

namespace Sys2Proof

/-- Field OP, bits [7:0] (30_encoding.md R70). -/
def opField (w : Word) : Byte := w.extractLsb' 0 8

/-- Field RSV, bits [31:8] (30_encoding.md R70). -/
def rsvField (w : Word) : BitVec 24 := w.extractLsb' 8 24

/-- Why a word is no command (30_encoding.md R75). -/
inductive DecodeError where
  /-- `w[31:8] != 0`. -/
  | reservedBits
  /-- An unassigned opcode: 0x07 or 0x0B..0xFF. -/
  | unassignedOpcode
  deriving DecidableEq, Repr

/-- The opcode map of 30_encoding.md R74. -/
def decodeOpcode (op : Byte) : Except DecodeError Instr :=
  match op.toNat with
  | 0x00 => .ok .nop
  | 0x01 => .ok .wruint
  | 0x02 => .ok .rduint
  | 0x03 => .ok .cksum
  | 0x04 => .ok .frame
  | 0x05 => .ok .sealBlock
  | 0x06 => .ok .validate
  | 0x08 => .ok .xor
  | 0x09 => .ok .encode
  | 0x0A => .ok .decode
  | _ => .error .unassignedOpcode

/-- Decoding is total: a command of R74, or illegal for a named reason (30_encoding.md R71, R75). -/
def decode (w : Word) : Except DecodeError Instr :=
  if rsvField w = 0 then decodeOpcode (opField w) else .error .reservedBits

/-- The opcode of a command (30_encoding.md R74). -/
def opcode : Instr → Byte
  | .nop => 0x00
  | .wruint => 0x01
  | .rduint => 0x02
  | .cksum => 0x03
  | .frame => 0x04
  | .sealBlock => 0x05
  | .validate => 0x06
  | .xor => 0x08
  | .encode => 0x09
  | .decode => 0x0A

/-- The command word of a command: RSV = 0, then OP (30_encoding.md R70). -/
def encode (i : Instr) : Word := 0#24 ++ opcode i

/-- The command whose word is the low `nbits` bits of `w`, every higher bit 0. "Every command is exactly one word"
(30_encoding.md R70), so the table's bit numbering is the word's own. -/
def decodeTableWord (nbits w : Nat) : Option Instr :=
  match decode (BitVec.ofNat 32 (w % 2 ^ nbits)) with
  | .ok i => some i
  | .error _ => none

end Sys2Proof
end

