-- ==== Sys2Proof/Machine/State.lean ====
section
/-! DEFINITION. The machine's state (10_state.md R20), its reset values (R42), and the reasons a step can stop. -/

namespace Sys2Proof.Machine

/-- The command engine: idle, or executing the latched command word (10_state.md R38). -/
inductive Engine where
  | idle
  | busy (w : Word)
  deriving DecidableEq, Repr

/-- The error codes of 60_exceptions.md R200, by name; codes 8..15 are "never produced" (log 15). -/
inductive ErrCode where
  | ok
  | sizeMismatch
  | sizeOverflow
  | unrecoverable
  | illegalCmd
  | range
  | overlap
  | frameSize
  deriving DecidableEq, Repr

/-- Who moves in a step: the host with its next action, the engine with the completion of its command, or the
platform with the hardware reset input (60_exceptions.md R206, R210; 70_reset_and_hazards.md R230; log 5). -/
inductive Turn where
  | host
  | engine
  | rst
  deriving DecidableEq, Repr

/-- DMEM as what has been written to it: (address, byte) pairs, addresses strictly rising. An address that is not
listed has not been written since power-on (70_reset_and_hazards.md R233; log 2). -/
abbrev Memory := List Host.Cell

/-- The state of 10_state.md R20. ID and CONFIG are hardwired, CMD and DDATA hold no state of their own, BUSY and `irq`
are computed from the fields (R31, R32, R35, R37, R38, R39; log 1). -/
structure State where
  /-- CTRL.IE (R33). -/
  ie : Bool
  /-- STATUS.DONE (R34). -/
  done : Bool
  /-- STATUS.ERR (R34). -/
  err : ErrCode
  /-- STATUS.LASTOP (R34). -/
  lastop : Byte
  /-- ARG0..ARG7 (R21). -/
  args : Vector Word 8
  /-- RES0..RES3 (R22). -/
  res : Vector Word 4
  /-- DADDR (R36). -/
  daddr : Word
  /-- ENG (R38). -/
  eng : Engine
  /-- DMEM (R40). -/
  dmem : Memory
  /-- The model's own: the host's actions still to be performed, in program order (20_memory.md R66; log 6). -/
  bus : List HostOp
  /-- The model's own: the values the host's reads have returned, oldest first (30_encoding.md R76; log 6). -/
  reads : List Word
  /-- The model's own: who moves in the coming steps (log 5). -/
  schedule : List Turn
  /-- The model's own: how many commands a hardware reset has aborted, the argument of the free value
  `Config.abortByte` (log 4). -/
  draws : Nat
  deriving DecidableEq, Repr

/-- Nothing stops this machine with a fault: "Errors are reported as STATUS.ERR codes at completion", "nothing traps"
(60_exceptions.md, R207). The type is empty, so no one raises one, and every claim of a fault is false. -/
inductive Fault where
  deriving DecidableEq, Repr

/-- Why a step has no meaning. -/
inductive Refusal where
  /-- Raised by an arm of `exec` whose command has no meaning yet; no arm does. Safe. -/
  | notModelled (mnemonic : String)
  /-- Raised by the host's turn for an access narrower than 32 bits: "outside this hardware's interface (a model
  refuses it)" (20_memory.md R60). Safe. -/
  | narrowAccess
  deriving DecidableEq, Repr

/-- The machine right after reset (10_state.md R42): every register 0, the engine idle, nothing listed in DMEM. The
model's own fields are empty (DESIGN CHOICE, logs 4, 5 and 6). -/
def State.reset : State where
  ie := false
  done := false
  err := .ok
  lastop := 0
  args := Vector.replicate 8 0
  res := Vector.replicate 4 0
  daddr := 0
  eng := .idle
  dmem := []
  bus := []
  reads := []
  schedule := []
  draws := 0

end Sys2Proof.Machine
end

