-- ==== Sys2Proof/Machine/Ops.lean ====
section
/-! DEFINITION. The shared operations: regions (00_scope.md R13), DMEM (R11), the result registers (R12), the issue of a
command (60_exceptions.md R205) and its completion (R206), which is also how every error is reported (R12, R200, R207:
"the trap mechanism's place"). -/

namespace Sys2Proof.Machine

/-! ### Regions -/

/-- `inRange(a, n)`: `a + n <= DMEM_SIZE` in integers (R13). -/
abbrev inRange (a n : Nat) : Prop := a + n ≤ Config.dmemSize

/-- `overlap(a, n, b, m)`; zero-length regions overlap nothing (R13). -/
abbrev overlap (a n b m : Nat) : Prop := n > 0 ∧ m > 0 ∧ a < b + m ∧ b < a + n

/-- Two regions of the list overlap, (start, length) each. -/
def anyOverlap : List (Nat × Nat) → Bool
  | [] => false
  | r :: rest => rest.any (fun q => overlap r.1 r.2 q.1 q.2) || anyOverlap rest

/-! ### DMEM -/

/-- The byte last written at an address, if any has been. -/
def Memory.written : Memory → Nat → Option Byte
  | [], _ => none
  | (k, b) :: rest, a => if k = a then some b else Memory.written rest a

/-- One byte of DMEM: what was last written there, else the byte it has held since power-on
(70_reset_and_hazards.md R233; log 2). -/
def Memory.read (m : Memory) (a : Nat) : Byte := (m.written a).getD (Config.powerOnByte a)

/-- `DMEM[a] <- b`, keeping the addresses strictly rising. -/
def Memory.write : Memory → Nat → Byte → Memory
  | [], a, b => [(a, b)]
  | (k, c) :: rest, a, b =>
    if a < k then (a, b) :: (k, c) :: rest
    else if a = k then (a, b) :: rest
    else (k, c) :: Memory.write rest a b

/-- `MemRead(a, n)` (R11). -/
def Memory.readBytes (m : Memory) : (a n : Nat) → List Byte
  | _, 0 => []
  | a, n + 1 => m.read a :: Memory.readBytes m (a + 1) n

/-- `MemWrite(a, s)` (R11). -/
def Memory.writeBytes : Memory → Nat → List Byte → Memory
  | m, _, [] => m
  | m, a, b :: rest => Memory.writeBytes (m.write a b) (a + 1) rest

/-- The canonical form of DMEM: addresses strictly rising, each inside `0 .. DMEM_SIZE-1` (10_state.md R40; log 2). -/
abbrev Memory.wf (m : Memory) : Prop :=
  m.Pairwise (fun c d => c.1 < d.1) ∧ ∀ c ∈ m, c.1 < Config.dmemSize

/-- One byte of a state's DMEM. -/
def State.byteAt (s : State) (a : Nat) : Byte := s.dmem.read a

/-! ### What a command does -/

/-- The outcome of a command's rule: its error code, its `MemWrite`s and its writes of result registers, all of which
"take effect at its completion" (20_memory.md R62). -/
structure Effect where
  err : ErrCode := .ok
  writes : List (Nat × List Byte) := []
  results : List (Fin 4 × Word) := []
  deriving DecidableEq, Repr

/-- `raise E`: the code, no byte of DMEM, no result register (R12, 60_exceptions.md R203). -/
def raiseError (e : ErrCode) : Effect := { err := e }

/-- The `MemWrite`s of a command. -/
def Memory.writeAll : Memory → List (Nat × List Byte) → Memory
  | m, [] => m
  | m, (a, bytes) :: rest => Memory.writeAll (m.writeBytes a bytes) rest

/-- `RES[i] <- v` for each listed pair (R12); every other result register keeps its value (10_state.md R22). -/
def writeResults : Vector Word 4 → List (Fin 4 × Word) → Vector Word 4
  | r, [] => r
  | r, (i, v) :: rest => writeResults (r.set i v) rest

/-- Completion: "the engine performs the command's rule in one atomic step ..., then sets `ENG <- IDLE`,
`STATUS.BUSY <- 0`, `STATUS.DONE <- 1`, `STATUS.ERR <- code`" (60_exceptions.md R206). -/
def State.complete (s : State) (e : Effect) : State :=
  { s with
    dmem := s.dmem.writeAll e.writes
    res := writeResults s.res e.results
    eng := .idle
    done := true
    err := e.err }

/-- Issue of a command word (60_exceptions.md R205). -/
def State.issue (s : State) (w : Word) : State :=
  { s with eng := .busy w, done := false, err := .ok, lastop := opField w }

end Sys2Proof.Machine
end

