-- ==== Sys2Proof/Machine/Flags.lean ====
section
/-! DEFINITION. The word views of CTRL and STATUS, the `irq` line, the flag writes of the host (10_state.md R33, R34,
R38, R39), and the code numbers of errors, causes and roles (60_exceptions.md R200, 41_codec.md R176). -/

namespace Sys2Proof.Machine

/-- The code of an error, STATUS.ERR (60_exceptions.md R200). -/
def errorCode : ErrCode → BitVec 4
  | .ok => 0
  | .sizeMismatch => 1
  | .sizeOverflow => 2
  | .unrecoverable => 3
  | .illegalCmd => 4
  | .range => 5
  | .overlap => 6
  | .frameSize => 7

/-- STATUS.BUSY: `ENG = BUSY(w)` for some `w` (10_state.md R38). -/
def State.busy (s : State) : Bool :=
  match s.eng with
  | .idle => false
  | .busy _ => true

/-- STATUS as read: `[31:16]` 0, `[15:8]` LASTOP, `[7:4]` ERR, `[3:2]` 0, `[1]` DONE, `[0]` BUSY (10_state.md R34). -/
def State.statusWord (s : State) : Word :=
  0#16 ++ s.lastop ++ errorCode s.err ++ 0#2 ++ BitVec.ofBool s.done ++ BitVec.ofBool s.busy

/-- CTRL as read: `zext_32(IE)` (10_state.md R33). -/
def State.ctrlWord (s : State) : Word := (BitVec.ofBool s.ie).setWidth 32

/-- The interrupt line: `CTRL.IE AND STATUS.DONE` (10_state.md R39). -/
def State.irq (s : State) : Bool := s.ie && s.done

/-- A host write `v` to STATUS: "if `v[1] = 1` and `DONE = 1` then `DONE <- 0` and `ERR <- 0`; every other bit of `v` is
ignored" (10_state.md R34). -/
def State.writeStatus (s : State) (v : Word) : State :=
  if v.getLsbD 1 && s.done then { s with done := false, err := .ok } else s

/-- The code of a role; 3 is none (41_codec.md R176). -/
def roleCode : Option Role → Nat
  | some .a => 0
  | some .b => 1
  | some .x => 2
  | none => 3

/-- The code of a failure, RES3; 0 is success (41_codec.md R176). -/
def causeCode : Cause → Nat
  | .lengthsDiffer => 1
  | .fewGood => 2
  | .roleConflict => 3
  | .beyondCapacity => 4
  | .outOfRange => 5
  | .overlapsSlot => 6

/-- RES1 of a DECODE: BV in bit 8, the role code in [5:4], the slot in [1:0]; 0 when none is broken (41_codec.md R176). -/
def brokenWord : Option (Fin 3 × Role) → Word
  | none => 0
  | some (slot, role) => BitVec.ofNat 32 (2 ^ 8 + roleCode (some role) * 2 ^ 4 + slot.val)

/-- RES2 of a DECODE: the good bits in [2:0], the role codes of slots 0, 1, 2 in [9:8], [11:10], [13:12]
(41_codec.md R176). -/
def slotMapWord (good : Triple Bool) (role : Triple (Option Role)) : Word :=
  BitVec.ofNat 32 (good.s0.toNat + good.s1.toNat * 2 + good.s2.toNat * 2 ^ 2
    + roleCode role.s0 * 2 ^ 8 + roleCode role.s1 * 2 ^ 10 + roleCode role.s2 * 2 ^ 12)

/-- RES2 when the slots were not validated: no slot good, no role (41_codec.md R176, R180: 0x00003F00). -/
def emptySlotMap : Word := slotMapWord ⟨false, false, false⟩ ⟨none, none, none⟩

/-- RES2 once the slots are validated: the assigned roles when `Classify` succeeded, else the claimed ones
(41_codec.md R176). -/
def slotMap (v : Triple Validation) : Word :=
  match classify v with
  | .ok role => slotMapWord (v.map (·.good)) (role.map some)
  | .error _ => slotMapWord (v.map (·.good)) (v.map claimOf)

end Sys2Proof.Machine
end

