-- ==== Sys2Proof/Machine/Operands.lean ====
section
/-! DEFINITION. The operands of each command, read from the ARG registers at the positions of 30_encoding.md R72, in
the forms of R73: "Every ARG value is used as an unsigned 32-bit integer with no scaling or offset". -/

namespace Sys2Proof.Machine

/-- `ARG[i]` as an unsigned integer (00_scope.md R12, 30_encoding.md R72). -/
def State.arg (s : State) (i : Fin 8) : Nat := s.args[i].toNat

/-- WRUINT: addr, value. -/
structure WruintOperands where
  addr : Nat
  value : Nat
  deriving DecidableEq, Repr

/-- The WRUINT row of R72. -/
def wruintOperands (s : State) : WruintOperands := { addr := s.arg 0, value := s.arg 1 }

/-- RDUINT's addr: the RDUINT row of R72. -/
def rduintAddr (s : State) : Nat := s.arg 0

/-- An operand region: addr and a byte count. -/
structure RegionOperands where
  addr : Nat
  len : Nat
  deriving DecidableEq, Repr

/-- The CKSUM row of R72: addr, n. -/
def cksumOperands (s : State) : RegionOperands := { addr := s.arg 0, len := s.arg 1 }

/-- FRAME: dst, src, n, L, order. -/
structure FrameOperands where
  dst : Nat
  src : Nat
  n : Nat
  len : Nat
  ord : Nat
  deriving DecidableEq, Repr

/-- The FRAME row of R72. -/
def frameOperands (s : State) : FrameOperands :=
  { dst := s.arg 0, src := s.arg 1, n := s.arg 2, len := s.arg 3, ord := s.arg 4 }

/-- The SEAL row of R72: dst, L. -/
def sealOperands (s : State) : RegionOperands := { addr := s.arg 0, len := s.arg 1 }

/-- The VALIDATE row of R72: addr, L. -/
def validateOperands (s : State) : RegionOperands := { addr := s.arg 0, len := s.arg 1 }

/-- XOR: dst, a, b, n. -/
structure XorOperands where
  dst : Nat
  a : Nat
  b : Nat
  n : Nat
  deriving DecidableEq, Repr

/-- The XOR row of R72. -/
def xorOperands (s : State) : XorOperands := { dst := s.arg 0, a := s.arg 1, b := s.arg 2, n := s.arg 3 }

/-- ENCODE: src, n, dstA, dstB, dstX. -/
structure EncodeOperands where
  src : Nat
  n : Nat
  dstA : Nat
  dstB : Nat
  dstX : Nat
  deriving DecidableEq, Repr

/-- The ENCODE row of R72. -/
def encodeOperands (s : State) : EncodeOperands :=
  { src := s.arg 0, n := s.arg 1, dstA := s.arg 2, dstB := s.arg 3, dstX := s.arg 4 }

/-- DECODE: the three slots' addresses and lengths, and dst. -/
structure DecodeOperands where
  s0 : Nat
  s1 : Nat
  s2 : Nat
  len0 : Nat
  len1 : Nat
  len2 : Nat
  dst : Nat
  deriving DecidableEq, Repr

/-- The DECODE row of R72. -/
def decodeOperands (s : State) : DecodeOperands :=
  { s0 := s.arg 0, s1 := s.arg 1, s2 := s.arg 2
    len0 := s.arg 3, len1 := s.arg 4, len2 := s.arg 5, dst := s.arg 6 }

end Sys2Proof.Machine
end

