-- ==== Sys2Proof/Machine/Codec.lean ====
section
/-! DEFINITION. The Codec commands (41_codec.md): for each, what its rule does to DMEM and the result registers
(`…Effect`), and its meaning, the completion with that effect. -/

namespace Sys2Proof.Machine

/-- XOR (41_codec.md R155). -/
def xorEffect (s : State) : Effect :=
  let o := xorOperands s
  if ¬ inRange o.a o.n then raiseError .range
  else if ¬ inRange o.b o.n then raiseError .range
  else if ¬ inRange o.dst o.n then raiseError .range
  else if (o.dst ≠ o.a ∧ overlap o.dst o.n o.a o.n) ∨ (o.dst ≠ o.b ∧ overlap o.dst o.n o.b o.n) then
    raiseError .overlap
  else { writes := [(o.dst, xorBytes (s.dmem.readBytes o.a o.n) (s.dmem.readBytes o.b o.n))] }

/-- ENCODE (41_codec.md R165). -/
def encodeEffect (s : State) : Effect :=
  let o := encodeOperands s
  let L := blockLength o.n
  if ¬ inRange o.src o.n then raiseError .range
  else if halfB o.n > Config.maxLen then raiseError .sizeOverflow
  else if ¬ inRange o.dstA L then raiseError .range
  else if ¬ inRange o.dstB L then raiseError .range
  else if ¬ inRange o.dstX L then raiseError .range
  else if anyOverlap [(o.src, o.n), (o.dstA, L), (o.dstB, L), (o.dstX, L)] then raiseError .overlap
  else
    let c := encodePayload (s.dmem.readBytes o.src o.n)
    { writes := [(o.dstA, c.blkA), (o.dstB, c.blkB), (o.dstX, c.blkX)]
      results :=
        [(0, BitVec.ofNat 32 L), (1, BitVec.ofNat 32 (halfA o.n)), (2, BitVec.ofNat 32 (halfB o.n))] }

/-- DECODE on failure: RES0 and RES1 take 0, RES2 what is known of the slots, RES3 the cause (41_codec.md R180). -/
def decodeFailure (e : ErrCode) (c : Cause) (map : Word) : Effect :=
  { err := e
    results := [(0, 0), (1, 0), (2, map), (3, BitVec.ofNat 32 (causeCode c))] }

/-- DECODE once the slots are decoded: the checks of the destination, then the payload and the results
(41_codec.md R180). -/
def decodeDeliver (o : DecodeOperands) (map : Word) (d : Decoded) : Effect :=
  let m := d.lenA + d.lenB
  if ¬ inRange o.dst m then decodeFailure .range .outOfRange map
  else if overlap o.dst m o.s0 o.len0 ∨ overlap o.dst m o.s1 o.len0 ∨ overlap o.dst m o.s2 o.len0 then
    decodeFailure .overlap .overlapsSlot map
  else
    { writes := [(o.dst, d.payload)]
      results := [(0, BitVec.ofNat 32 m), (1, brokenWord d.broken), (2, map), (3, 0)] }

/-- The three slots' bytes, each `L0` long (41_codec.md R180). -/
def decodeSlots (s : State) : Triple (List Byte) :=
  let o := decodeOperands s
  ⟨s.dmem.readBytes o.s0 o.len0, s.dmem.readBytes o.s1 o.len0, s.dmem.readBytes o.s2 o.len0⟩

/-- DECODE (41_codec.md R180). -/
def decodeEffect (s : State) : Effect :=
  let o := decodeOperands s
  if ¬ (o.len0 = o.len1 ∧ o.len1 = o.len2) then decodeFailure .sizeMismatch .lengthsDiffer emptySlotMap
  else if ¬ (inRange o.s0 o.len0 ∧ inRange o.s1 o.len0 ∧ inRange o.s2 o.len0) then
    decodeFailure .range .outOfRange emptySlotMap
  else
    let map := slotMap ((decodeSlots s).map validateBlock)
    match decodeBlocks o.len0 (decodeSlots s) with
    | .error c => decodeFailure .unrecoverable c map
    | .ok d => decodeDeliver o map d

/-- XOR, opcode 0x08. -/
def execXor (s : State) : Host.Outcome State Fault Refusal := .next (s.complete (xorEffect s))

/-- ENCODE, opcode 0x09. -/
def execEncode (s : State) : Host.Outcome State Fault Refusal := .next (s.complete (encodeEffect s))

/-- DECODE, opcode 0x0A. -/
def execDecode (s : State) : Host.Outcome State Fault Refusal := .next (s.complete (decodeEffect s))

end Sys2Proof.Machine
end

