-- ==== Sys2Proof/Machine/Framer.lean ====
section
/-! DEFINITION. The Framer/Checksummer commands (40_framer.md section 2): for each, what its rule does to DMEM and the
result registers (`…Effect`), and its meaning, the completion with that effect. -/

namespace Sys2Proof.Machine

/-- NOP: "no operation; the command completes" (40_framer.md R110). -/
def nopEffect (_ : State) : Effect := {}

/-- WRUINT (40_framer.md R115). -/
def wruintEffect (s : State) : Effect :=
  let o := wruintOperands s
  if ¬ inRange o.addr Config.lenW then raiseError .range
  else if o.value > Config.maxLen then raiseError .sizeOverflow
  else { writes := [(o.addr, beBytes Config.lenW o.value)] }

/-- RDUINT (40_framer.md R118). -/
def rduintEffect (s : State) : Effect :=
  let addr := rduintAddr s
  if ¬ inRange addr Config.lenW then raiseError .range
  else { results := [(0, BitVec.ofNat 32 (beValue (s.dmem.readBytes addr Config.lenW)))] }

/-- CKSUM (40_framer.md R120). -/
def cksumEffect (s : State) : Effect :=
  let o := cksumOperands s
  if ¬ inRange o.addr o.len then raiseError .range
  else { results := [(0, BitVec.ofNat 32 (adler32 (s.dmem.readBytes o.addr o.len)))] }

/-- FRAME (40_framer.md R125). -/
def frameEffect (s : State) : Effect :=
  let o := frameOperands s
  if o.ord > 255 then raiseError .range
  else if ¬ inRange o.src o.n then raiseError .range
  else if ¬ inRange o.dst o.len then raiseError .range
  else if o.n > Config.maxLen then raiseError .sizeOverflow
  else if o.len < Config.hdr + o.n + Config.ckW then raiseError .frameSize
  else if overlap o.dst o.len o.src o.n then raiseError .overlap
  else
    let blk := frameBlock (BitVec.ofNat 8 o.ord) (s.dmem.readBytes o.src o.n) o.len
    { writes := [(o.dst, blk)]
      results := [(0, BitVec.ofNat 32 (beValue (checksumField blk)))] }

/-- SEAL (40_framer.md R130). -/
def sealEffect (s : State) : Effect :=
  let o := sealOperands s
  if ¬ inRange o.addr o.len then raiseError .range
  else if o.len < Config.ckW then raiseError .frameSize
  else
    let k := adler32 (s.dmem.readBytes o.addr (o.len - Config.ckW))
    { writes := [(o.addr + o.len - Config.ckW, beBytes Config.ckW k)]
      results := [(0, BitVec.ofNat 32 k)] }

/-- VALIDATE (40_framer.md R135). -/
def validateEffect (s : State) : Effect :=
  let o := validateOperands s
  if ¬ inRange o.addr o.len then raiseError .range
  else
    let v := validateBlock (s.dmem.readBytes o.addr o.len)
    { results :=
        [(0, v.order.setWidth 32), (1, BitVec.ofNat 32 v.declared),
          (2, if v.good then 1 else 0), (3, BitVec.ofNat 32 v.comp)] }

/-- NOP, opcode 0x00. -/
def execNop (s : State) : Host.Outcome State Fault Refusal := .next (s.complete (nopEffect s))

/-- WRUINT, opcode 0x01. -/
def execWruint (s : State) : Host.Outcome State Fault Refusal := .next (s.complete (wruintEffect s))

/-- RDUINT, opcode 0x02. -/
def execRduint (s : State) : Host.Outcome State Fault Refusal := .next (s.complete (rduintEffect s))

/-- CKSUM, opcode 0x03. -/
def execCksum (s : State) : Host.Outcome State Fault Refusal := .next (s.complete (cksumEffect s))

/-- FRAME, opcode 0x04. -/
def execFrame (s : State) : Host.Outcome State Fault Refusal := .next (s.complete (frameEffect s))

/-- SEAL, opcode 0x05. -/
def execSeal (s : State) : Host.Outcome State Fault Refusal := .next (s.complete (sealEffect s))

/-- VALIDATE, opcode 0x06. -/
def execValidate (s : State) : Host.Outcome State Fault Refusal := .next (s.complete (validateEffect s))

end Sys2Proof.Machine
end

