-- ==== Sys2Proof/Machine/Reset.lean ====
section
/-! DEFINITION. Reset (70_reset_and_hazards.md section 1): the soft reset, and the hardware reset, which may abort a
command. -/

namespace Sys2Proof.Machine

/-- Every register, field and the engine at its 10_state.md R42 value; DMEM and the model's own fields unchanged. This is
the soft reset (70_reset_and_hazards.md R232), and what the hardware reset does to the registers (R231). -/
def State.resetRegisters (s : State) : State :=
  { State.reset with
    dmem := s.dmem, bus := s.bus, reads := s.reads, schedule := s.schedule, draws := s.draws }

/-- What a command's rule would do on a state. -/
def commandEffect (i : Instr) (s : State) : Effect :=
  match i with
  | .nop => nopEffect s
  | .wruint => wruintEffect s
  | .rduint => rduintEffect s
  | .cksum => cksumEffect s
  | .frame => frameEffect s
  | .sealBlock => sealEffect s
  | .validate => validateEffect s
  | .xor => xorEffect s
  | .encode => encodeEffect s
  | .decode => decodeEffect s

/-- What a command word would do on a state; an illegal word does nothing (30_encoding.md R71). -/
def wordEffect (w : Word) (s : State) : Effect :=
  match decode w with
  | .ok i => commandEffect i s
  | .error _ => raiseError .illegalCmd

/-- `n` bytes drawn for addresses from `a` on, at the abort numbered `k` (70_reset_and_hazards.md R233). -/
def drawBytes (k : Nat) : (a n : Nat) → List Byte
  | _, 0 => []
  | a, n + 1 => Config.abortByte k a :: drawBytes k (a + 1) n

/-- DMEM after the abort of the command `w`: "every byte of the destination regions its rule would write (computed from
the ARG values at issue) is unspecified afterwards, every other DMEM byte is unchanged" (70_reset_and_hazards.md R233;
log 3). -/
def abortedMemory (w : Word) (s : State) : Memory :=
  s.dmem.writeAll ((wordEffect w s).writes.map fun d => (d.1, drawBytes s.draws d.1 d.2.length))

/-- The hardware reset (70_reset_and_hazards.md R231, R233). -/
def State.hardwareReset (s : State) : State :=
  match s.eng with
  | .idle => s.resetRegisters
  | .busy w => { s.resetRegisters with dmem := abortedMemory w s, draws := s.draws + 1 }

end Sys2Proof.Machine
end

