-- ==== Sys2Proof/Machine/Bus.lean ====
section
/-! DEFINITION. The register window and the host (10_state.md section 4; 20_memory.md R59-R63; 70_reset_and_hazards.md
R241): the register map, reads and writes with their side effects, bus holding, and one turn of the host. -/

namespace Sys2Proof.Machine

/-- The registers of the map of 10_state.md R30. -/
inductive Reg where
  | id
  | config
  | ctrl
  | status
  | cmd
  | arg (i : Fin 8)
  | res (i : Fin 4)
  | daddr
  | ddata
  deriving DecidableEq, Repr

/-- The offset of a register (10_state.md R30). -/
def regOffset : Reg → Nat
  | .id => 0x000
  | .config => 0x004
  | .ctrl => 0x008
  | .status => 0x00C
  | .cmd => 0x010
  | .arg i => 0x020 + 4 * i.val
  | .res i => 0x040 + 4 * i.val
  | .daddr => 0x050
  | .ddata => 0x054

/-- The registers of the map, in the order of R30. -/
def allRegs : List Reg :=
  [.id, .config, .ctrl, .status, .cmd]
    ++ (List.finRange 8).map .arg ++ (List.finRange 4).map .res ++ [.daddr, .ddata]

/-- The register at an access's offset: "only offset bits [11:0] are decoded" (10_state.md R30). None at a reserved
offset and at an offset that is not a multiple of 4 (20_memory.md R59). -/
def regAt (offset : Word) : Option Reg := allRegs.find? fun r => regOffset r = offset.toNat % 4096

/-- ID: `0x45524631`, hardwired (10_state.md R31). -/
def idWord : Word := 0x45524631

/-- CONFIG, hardwired: LEN_W in [3:0], CK_W in [7:4], CK_ALG in [11:8], DMEM_LOG2 in [20:16], VERSION in [31:24]
(10_state.md R32). -/
def configWord : Word :=
  BitVec.ofNat 32 (Config.lenW + Config.ckW * 2 ^ 4 + Config.ckAlg * 2 ^ 8 + Config.dmemLog2 * 2 ^ 16
    + Config.version * 2 ^ 24)

/-- "Every DDATA access, read or write, increments it: `DADDR <- (DADDR + 1) mod 2^32`" (10_state.md R36). -/
def State.advanceDaddr (s : State) : State := { s with daddr := s.daddr + 1 }

/-- What a DDATA read returns: `zext_32(DMEM[DADDR])` in range, else 0 (10_state.md R37). -/
def State.ddataValue (s : State) : Word :=
  if s.daddr.toNat < Config.dmemSize then (s.byteAt s.daddr.toNat).setWidth 32 else 0

/-- The value a register read returns (10_state.md R31-R37). -/
def State.regValue (s : State) : Reg → Word
  | .id => idWord
  | .config => configWord
  | .ctrl => s.ctrlWord
  | .status => s.statusWord
  | .cmd => 0
  | .arg i => s.args[i]
  | .res i => s.res[i]
  | .daddr => s.daddr
  | .ddata => s.ddataValue

/-- A host read at an offset: the value and the state after. Only DDATA has a side effect (20_memory.md R63); a reserved
or misaligned offset reads 0 (R59). -/
def readReg (offset : Word) (s : State) : Word × State :=
  match regAt offset with
  | none => (0, s)
  | some .ddata => (s.regValue .ddata, s.advanceDaddr)
  | some r => (s.regValue r, s)

/-- A host write of CTRL: the soft reset when `v[1] = 1`, else `IE <- v[0]` (70_reset_and_hazards.md R232). -/
def State.writeCtrl (s : State) (v : Word) : State :=
  if v.getLsbD 1 then s.resetRegisters else { s with ie := v.getLsbD 0 }

/-- A host write of DDATA: a byte of DMEM in range, nothing otherwise, then the increment (10_state.md R37). -/
def State.writeDdata (s : State) (v : Word) : State :=
  if s.daddr.toNat < Config.dmemSize then
    { s with dmem := s.dmem.write s.daddr.toNat (v.setWidth 8) }.advanceDaddr
  else s.advanceDaddr

/-- A host write at an offset (10_state.md R21, R22, R31-R37). A write of a read-only register, and a write at a reserved
or misaligned offset, is ignored (20_memory.md R59). -/
def writeReg (offset v : Word) (s : State) : State :=
  match regAt offset with
  | none => s
  | some .id => s
  | some .config => s
  | some .ctrl => s.writeCtrl v
  | some .status => s.writeStatus v
  | some .cmd => s.issue v
  | some (.arg i) => { s with args := s.args.set i v }
  | some (.res _) => s
  | some .daddr => { s with daddr := v }
  | some .ddata => s.writeDdata v

/-- Which registers hold the bus while a command executes: "CTRL, CMD, ARG0..ARG7, RES0..RES3, DADDR or DDATA"
(70_reset_and_hazards.md R241; log 9). -/
def heldReg : Reg → Bool
  | .id => false
  | .config => false
  | .ctrl => true
  | .status => false
  | .cmd => true
  | .arg _ => true
  | .res _ => true
  | .daddr => true
  | .ddata => true

/-- An access at this offset is held: the engine is busy and the register is one of those of R241. Accesses to reserved or
misaligned offsets are never held (R241; log 10). -/
def State.holds (s : State) (offset : Word) : Bool :=
  s.busy && (regAt offset).any heldReg

/-- The host performs an action, the rest of its program standing in `rest`. A held access is not performed and stays at the
head (70_reset_and_hazards.md R241); `wait` stays until STATUS reads `BUSY = 0` (30_encoding.md R76; log 13); an access
narrower than 32 bits is refused (20_memory.md R60). -/
def hostAction (op : HostOp) (rest : List HostOp) (s : State) : Host.Outcome State Fault Refusal :=
  match op with
  | .wr .word offset v => if s.holds offset then .next s else .next (writeReg offset v { s with bus := rest })
  | .rd .word offset =>
    if s.holds offset then .next s
    else
      let r := readReg offset { s with bus := rest }
      .next { r.2 with reads := s.reads ++ [r.1] }
  | .wait => if s.busy then .next s else .next { s with bus := rest }
  | .wr .byte _ _ => .refused .narrowAccess
  | .wr .half _ _ => .refused .narrowAccess
  | .rd .byte _ => .refused .narrowAccess
  | .rd .half _ => .refused .narrowAccess

/-- One turn of the host: its next action in program order (20_memory.md R66); with none left it does nothing. -/
def hostTurn (s : State) : Host.Outcome State Fault Refusal :=
  match s.bus with
  | [] => .next s
  | op :: rest => hostAction op rest s

end Sys2Proof.Machine
end

