-- ==== Sys2Proof/Machine/Dispatch.lean ====
section
/-! DEFINITION. One arm per command (30_encoding.md R74): the completion step of that command (60_exceptions.md R206). -/

namespace Sys2Proof.Machine

/-- The completion step of a command, on the DMEM and ARG state at issue (60_exceptions.md R206). -/
def exec (i : Instr) (s : State) : Host.Outcome State Fault Refusal :=
  match i with
  | .nop => Sys2Proof.Machine.execNop s
  | .wruint => Sys2Proof.Machine.execWruint s
  | .rduint => Sys2Proof.Machine.execRduint s
  | .cksum => Sys2Proof.Machine.execCksum s
  | .frame => Sys2Proof.Machine.execFrame s
  | .sealBlock => Sys2Proof.Machine.execSeal s
  | .validate => Sys2Proof.Machine.execValidate s
  | .xor => Sys2Proof.Machine.execXor s
  | .encode => Sys2Proof.Machine.execEncode s
  | .decode => Sys2Proof.Machine.execDecode s

end Sys2Proof.Machine
end

