-- ==== Sys2Proof/Machine/Turns.lean ====
section
/-! DEFINITION. The turns of the three agents and the choice among them (30_encoding.md R71; 60_exceptions.md R205, R206,
R210; 70_reset_and_hazards.md R240; logs 5, 16). -/

namespace Sys2Proof.Machine

/-- The command word the engine executes: "the command being executed is the one latched in `ENG`" (10_state.md R25). -/
def latchedWord (s : State) : Option Word :=
  match s.eng with
  | .idle => none
  | .busy w => some w

/-- The completion step for a latched word: the decoded command, or ILLEGAL_CMD with no other effect (30_encoding.md R71,
60_exceptions.md R206). -/
def completeWord (w : Word) (s : State) : Host.Outcome State Fault Refusal :=
  match decode w with
  | .ok i => exec i s
  | .error _ => .next (s.complete (raiseError .illegalCmd))

/-- One turn of the engine: the completion of the command it executes; idle, it does nothing. -/
def engineTurn (s : State) : Host.Outcome State Fault Refusal :=
  match latchedWord s with
  | none => .next s
  | some w => completeWord w s

/-- The turn of one agent. -/
def takeTurn (t : Turn) (s : State) : Host.Outcome State Fault Refusal :=
  match t with
  | .host => hostTurn s
  | .engine => engineTurn s
  | .rst => .next s.hardwareReset

/-- Who moves when the schedule names no one: the engine if it executes a command, so that every command completes
(70_reset_and_hazards.md R240), else the host (log 5). -/
def defaultTurn (s : State) : Turn := if s.busy then .engine else .host

/-- The engine executes a word that is no command. -/
def illegalLatched (s : State) : Bool :=
  match latchedWord s with
  | none => false
  | some w => !decide (LegalWord w)

/-- "The engine completes it at once" (30_encoding.md R71): while an illegal word is latched, a turn named for the host is
the engine's, so that no host access comes between the word's issue and its completion (log 16). -/
def atOnce (t : Turn) (s : State) : Turn :=
  match t with
  | .host => if illegalLatched s then .engine else .host
  | .engine => .engine
  | .rst => .rst

/-- One step: the turn the schedule names, else the default one. -/
def scheduledTurn (s : State) : Host.Outcome State Fault Refusal :=
  match s.schedule with
  | [] => takeTurn (defaultTurn s) s
  | t :: rest => takeTurn (atOnce t s) { s with schedule := rest }

/-- The word `w` latched in the engine as its issue leaves it, and the next turn the engine's. -/
def latchNext (s : State) (w : Word) : State :=
  { s.issue w with schedule := .engine :: s.schedule }

end Sys2Proof.Machine
end

