-- ==== Sys2Proof/Machine/Step.lean ====
section
/-! DEFINITION. The step of the machine, and the state whose next step runs a given command word. -/

namespace Sys2Proof.Machine

/-- One step: one host access, one completion, or one hardware reset (92_eei_decisions.md D1, 60_exceptions.md R210). -/
def step (s : State) : Host.Outcome State Fault Refusal := scheduledTurn s

/-- The machine fetches nothing (10_state.md R25): a command word is issued by a host write and latched in the engine. This
is `s` with that word, its bits above `nbits` zero, issued (60_exceptions.md R205), and the engine to move next, so that
the next step runs it (log 7). -/
def State.withFetchWord (s : State) (nbits w : Nat) : State := latchNext s (BitVec.ofNat 32 (w % 2 ^ nbits))

end Sys2Proof.Machine
end

