-- ==== Sys2Proof/Machine/Assembly.lean ====
section
/-! DEFINITION. The host assembly of 30_encoding.md R76, R77: each pseudo-instruction's expansion into bus accesses. -/

namespace Sys2Proof.Machine

/-- `wr REG, imm` (R76). -/
def wrReg (r : Reg) (v : Word) : HostOp := .wr .word (BitVec.ofNat 32 (regOffset r)) v

/-- `rd REG` (R76). -/
def rdReg (r : Reg) : HostOp := .rd .word (BitVec.ofNat 32 (regOffset r))

/-- `wr ARG0, v0` ... `wr ARGk, vk` (R77); there are no more than eight ARG registers. -/
def writeArgs (operands : List Word) : List HostOp :=
  (List.finRange 8).zipWith (fun i v => wrReg (.arg i) v) operands

/-- `wr DADDR, addr` then `wr DDATA` of each byte (R77). -/
def pokeBytes (addr : Word) (bytes : List Byte) : List HostOp :=
  wrReg .daddr addr :: bytes.map fun b => wrReg .ddata (b.setWidth 32)

/-- The expansions of R77. -/
def expandPseudo : HostPseudo → List HostOp
  | .base op => [op]
  | .command i operands => writeArgs operands ++ [wrReg .cmd (encode i)]
  | .poke addr bytes => pokeBytes addr bytes
  | .pokeText addr text => pokeBytes addr (text.toList.map fun c => BitVec.ofNat 8 c.toNat)
  | .peek addr n => wrReg .daddr addr :: List.replicate n (rdReg .ddata)
  | .ack => [wrReg .status 0x2]

/-- A host program as the list of its bus accesses (R76). -/
def assembleProgram (program : List HostPseudo) : List HostOp := program.flatMap expandPseudo

end Sys2Proof.Machine
end

