-- ==== Sys2Proof/Safety.lean ====
section
/-! DEFINITION. The terms in which claims are made: the invariant of the machine, who moves next, what a command leaves
alone, and what DECODE sees in its slots. -/

namespace Sys2Proof.Machine

/-! ### The invariant -/

/-- While BUSY, DONE is 0 and LASTOP holds the word's opcode (10_state.md R34, R38; 60_exceptions.md R205). -/
abbrev EngineConsistent (s : State) : Prop :=
  match s.eng with
  | .idle => True
  | .busy w => s.done = false ∧ s.lastop = opField w

/-- The states a run can reach satisfy this: DMEM is in canonical form, ERR is 0 unless DONE is set, ERR is never
SIZE_OVERFLOW (60_exceptions.md R201), and the flags agree with the engine. -/
abbrev Inv (s : State) : Prop :=
  s.dmem.wf ∧ (s.done = false → s.err = .ok) ∧ s.err ≠ .sizeOverflow ∧ EngineConsistent s

/-! ### Who moves -/

/-- The agent that moves in the next step: the one the schedule names, else the default one, a latched illegal word being
completed before any host turn (logs 5, 16). -/
def nextTurn (s : State) : Turn := atOnce (s.schedule.head?.getD (defaultTurn s)) s

/-- The next step is a reset: `rst` comes next, or the host does with the engine idle and a CTRL write whose bit 1 is set at
the head of its program (70_reset_and_hazards.md R231, R232). -/
def ResetsNext (s : State) : Prop :=
  nextTurn s = .rst ∨
    (nextTurn s = .host ∧ s.eng = .idle ∧ ∃ offset v rest, s.bus = .wr .word offset v :: rest ∧
      offset.toNat % 4096 = 0x008 ∧ v.getLsbD 1 = true)

/-- The state with the next step's turn taken off the schedule. -/
def popped (s : State) : State := { s with schedule := s.schedule.tail }

/-- The state with the next step's turn taken off the schedule and the host's action off its program, `rest` being what
stands after it. -/
def consumed (s : State) (rest : List HostOp) : State := { popped s with bus := rest }

/-! ### Frames -/

/-- Nothing but DMEM, RES, ENG, DONE and ERR differs: what every command leaves alone. -/
structure CommandFrame (s t : State) : Prop where
  ie : t.ie = s.ie
  lastop : t.lastop = s.lastop
  args : t.args = s.args
  daddr : t.daddr = s.daddr
  bus : t.bus = s.bus
  reads : t.reads = s.reads
  schedule : t.schedule = s.schedule
  draws : t.draws = s.draws

/-- A command of `s` has completed in `t` with code `e`: "`ENG <- IDLE`, `STATUS.BUSY <- 0`, `STATUS.DONE <- 1`,
`STATUS.ERR <- code`" (60_exceptions.md R206), and nothing but DMEM and RES differs besides. -/
structure CompletedWith (s t : State) (e : ErrCode) : Prop where
  eng : t.eng = .idle
  done : t.done = true
  err : t.err = e
  frame : CommandFrame s t

/-- Every byte of DMEM reads as before. -/
def MemSame (s t : State) : Prop := ∀ x, t.byteAt x = s.byteAt x

/-- Every byte of DMEM outside `[a, a + n)` reads as before. -/
def MemSameOutside (s t : State) (a n : Nat) : Prop := ∀ x, ¬ (a ≤ x ∧ x < a + n) → t.byteAt x = s.byteAt x

/-- Every result register but the listed ones is unchanged. -/
def ResSameExcept (s t : State) (changed : List (Fin 4)) : Prop := ∀ i, i ∉ changed → t.res[i] = s.res[i]

/-! ### DECODE's slots -/

/-- The address of slot `i`: ARG0, ARG1, ARG2 (30_encoding.md R72). -/
def slotAddr (s : State) : Fin 3 → Nat
  | 0 => s.args[0].toNat
  | 1 => s.args[1].toNat
  | 2 => s.args[2].toNat

/-- The length of slot `i`: ARG3, ARG4, ARG5 (30_encoding.md R72). -/
def slotLen (s : State) : Fin 3 → Nat
  | 0 => s.args[3].toNat
  | 1 => s.args[4].toNat
  | 2 => s.args[5].toNat

/-- The bytes of slot `i`. -/
def slotBytes (s : State) (i : Fin 3) : List Byte := s.dmem.readBytes (slotAddr s i) (slotLen s i)

/-- The slot's stored checksum equals the one recomputed over its covered bytes (40_framer.md R102). -/
def slotGood (s : State) (i : Fin 3) : Bool := (validateBlock (slotBytes s i)).good

/-- The slot is good and its order byte claims this role (41_codec.md R170). -/
def slotClaims (s : State) (i : Fin 3) (r : Role) : Prop :=
  slotGood s i = true ∧ claimedRole (orderByte (slotBytes s i)) = r

/-- The three lengths are equal and the three slots are in DMEM: the first two checks of 41_codec.md R180. -/
def SlotsReadable (s : State) : Prop :=
  (∀ i, slotLen s i = slotLen s 0) ∧ ∀ i, slotAddr s i + slotLen s i ≤ Config.dmemSize

/-- `RES2[2:0]`: bit `i` is 1 iff slot `i` is good (41_codec.md R176). -/
def goodMask (s : State) : Nat :=
  (slotGood s 0).toNat + 2 * (slotGood s 1).toNat + 4 * (slotGood s 2).toNat

/-- DECODE's ends once two lengths and two sequences to cut the payload from are chosen (41_codec.md R174, R176, R180): the
length check (cause 4), the destination's range (cause 5) and overlap (cause 6), and the delivery of the payload. `res1` and
`res2` are RES1 on success and RES2 on every one of these ends. -/
def DecodeEnds (s : State) (lenA lenB : Nat) (fromA fromB : List Byte) (res1 res2 : Word) : Prop :=
  let L := slotLen s 0
  let dst := s.args[6].toNat
  let m := lenA + lenB
  ∃ t, exec .decode s = .next t ∧
    (if lenA > L - 9 ∨ lenB > L - 9 then
      CompletedWith s t .unrecoverable ∧ MemSame s t ∧ t.res = #v[0, 0, res2, 4]
    else if dst + m > Config.dmemSize then
      CompletedWith s t .range ∧ MemSame s t ∧ t.res = #v[0, 0, res2, 5]
    else if ∃ i, overlap dst m (slotAddr s i) L then
      CompletedWith s t .overlap ∧ MemSame s t ∧ t.res = #v[0, 0, res2, 6]
    else
      CompletedWith s t .ok ∧ MemSameOutside s t dst m ∧
        t.dmem.readBytes dst m = (fromA.drop 5).take lenA ++ (fromB.drop 5).take lenB ∧
        t.res = #v[BitVec.ofNat 32 m, res1, res2, 0])

end Sys2Proof.Machine
end

