-- ==== Sys2Proof/Certificates/Slice0/Obligations.lean ====
section
/-! DEFINITION. The statements for the provers, from the numbered rules of spec/. -/

open Sys2Proof Sys2Proof.Machine

/-! ### Encoding (30_encoding.md) -/

/-- A word decodes to a command exactly when it is that command's encoding: decode and encode agree both ways (R70, R74). -/
def Obligations.DecodeInvertsEncode : Prop :=
  ∀ (w : Word) (i : Instr), decode w = .ok i ↔ w = encode i

/-- R71: which words are legal; a latched illegal one is completed by the very next step, whatever turn the schedule names
but `rst`, with ILLEGAL_CMD, and writes no DMEM byte and no RES register. That "at once" is the next step, not the step of
the CMD write, is the model's reading (log 16). -/
def Obligations.DecodingIsTotalAndIllegalWordsComplete : Prop :=
  (∀ w : Word, LegalWord w ↔ ∃ i, decode w = .ok i) ∧
  (∀ w : Word, decode w = .error .reservedBits ↔ w.toNat / 256 ≠ 0) ∧
  ∀ (s : State) (w : Word), s.eng = .busy w → ¬ LegalWord w → s.schedule.head? ≠ some .rst →
    nextTurn s = .engine ∧
      ∃ t, step s = .next t ∧ CompletedWith (popped s) t .illegalCmd ∧ MemSame s t ∧ t.res = s.res

/-- R74: the ten command words, written out, decode to their commands. -/
def Obligations.CommandWordsDecode : Prop :=
  decode 0x00000000 = .ok .nop ∧ decode 0x00000001 = .ok .wruint ∧ decode 0x00000002 = .ok .rduint ∧
  decode 0x00000003 = .ok .cksum ∧ decode 0x00000004 = .ok .frame ∧ decode 0x00000005 = .ok .sealBlock ∧
  decode 0x00000006 = .ok .validate ∧ decode 0x00000008 = .ok .xor ∧ decode 0x00000009 = .ok .encode ∧
  decode 0x0000000A = .ok .decode

/-! ### Steps, issue and completion (60_exceptions.md section 2, 70_reset_and_hazards.md section 2) -/

/-- A step of the engine runs the latched command: when the word in ENG decodes to `i` and the engine moves, the step is
`exec i` at that state with the turn taken off the schedule; and `withFetchWord` sets up exactly that step. -/
def Obligations.StepRunsTheLatchedCommand : Prop :=
  (∀ (s : State) (w : Word) (i : Instr), s.eng = .busy w → decode w = .ok i → nextTurn s = .engine →
    step s = exec i (popped s)) ∧
  ∀ (s : State) (w : Nat) (i : Instr), decode (BitVec.ofNat 32 (w % 2 ^ 32)) = .ok i →
    step (s.withFetchWord 32 w) = exec i (s.issue (BitVec.ofNat 32 (w % 2 ^ 32)))

/-- R205: a host write of CMD while idle sets ENG, DONE, ERR and LASTOP, and "Nothing else changes at issue"; while busy
it is held. -/
def Obligations.CmdWriteIssues : Prop :=
  ∀ (s : State) (offset w : Word) (rest : List HostOp), nextTurn s = .host →
    s.bus = .wr .word offset w :: rest → offset.toNat % 4096 = 0x010 →
    (s.eng = .idle →
      step s = .next { popped s with
        bus := rest, eng := .busy w, done := false, err := .ok, lastop := w.extractLsb' 0 8 }) ∧
    (s.eng ≠ .idle → step s = .next (popped s))

/-- R206, with what every command leaves alone: a command sets ENG, DONE and ERR, may write DMEM and RES, and changes
nothing else; CTRL, LASTOP, ARG0..ARG7 and DADDR keep their values (R21: "No command writes an ARG register"). -/
def Obligations.EveryCommandCompletes : Prop :=
  ∀ (i : Instr) (s : State), ∃ t e, exec i s = .next t ∧ CompletedWith s t e

/-- R203: a command that completes with an error has written no DMEM byte and, DECODE apart, no RES register; a failing
DECODE leaves 0 in RES0 and RES1, the slots in RES2 and a cause of 1..6 in RES3. -/
def Obligations.ErrorsHaveNoPartialEffect : Prop :=
  ∀ (i : Instr) (s t : State), exec i s = .next t → t.err ≠ .ok →
    MemSame s t ∧ (i ≠ .decode → t.res = s.res) ∧
      (i = .decode → t.res[0] = 0 ∧ t.res[1] = 0 ∧ t.res[2].toNat < 2 ^ 14 ∧
        1 ≤ t.res[3].toNat ∧ t.res[3].toNat ≤ 6)

/-- R201: WRUINT's value and FRAME's `n` are at most `MAXLEN`, ENCODE's `lenB` at most `2^31`, and no command raises
SIZE_OVERFLOW at `LEN_W = 4`. -/
def Obligations.SizeOverflowIsUnreachable : Prop :=
  (∀ s : State, s.args[1].toNat ≤ Config.maxLen ∧ s.args[2].toNat ≤ Config.maxLen ∧
    s.args[1].toNat - s.args[1].toNat / 2 ≤ 2 ^ 31) ∧
  ∀ (i : Instr) (s t : State), exec i s = .next t → t.err ≠ .sizeOverflow

/-- R240: an issued command completes after finitely many steps unless a hardware reset intervenes. Whatever the schedule, a
busy machine with no reset in its schedule and only word accesses on the bus completes its command within one step more than
the schedule is long. -/
def Obligations.IssuedCommandsComplete : Prop :=
  ∀ (s : State) (w : Word), s.eng = .busy w → Turn.rst ∉ s.schedule → (∀ op ∈ s.bus, op.WellFormed) →
    ∃ (k : Nat) (t : State), k ≤ s.schedule.length + 1 ∧ Sys2Proof.core.run k s = .next t ∧ t.eng = .idle ∧ t.done = true

/-- R71's "at once" through the bus, as in P4 of 95_test_vectors.md: a host that writes an illegal word to CMD and then, with
no wait, reads STATUS reads BUSY = 0, DONE = 1, ERR = 4 and LASTOP = w[7:0], whichever of the engine and the host the schedule
names between the two accesses; nothing else has changed. The step between them is the completion, which R210 keeps apart
from the access (log 16). -/
def Obligations.IllegalWordCompletesAtOnce : Prop :=
  ∀ (s : State) (cmdOffset statusOffset w : Word) (rest : List HostOp), s.eng = .idle → ¬ LegalWord w →
    cmdOffset.toNat % 4096 = 0x010 → statusOffset.toNat % 4096 = 0x00C →
    s.bus = .wr .word cmdOffset w :: .rd .word statusOffset :: rest →
    (s.schedule = [] ∨ ∃ t turns, t ≠ .rst ∧ s.schedule = .host :: t :: .host :: turns) →
    Sys2Proof.core.run 3 s = .next { s with
      bus := rest, schedule := s.schedule.drop 3, eng := .idle, done := true, err := .illegalCmd
      lastop := w.extractLsb' 0 8
      reads := s.reads ++ [BitVec.ofNat 32 (2 + 16 * 4 + 256 * (w.toNat % 256))] }

/-! ### The framer commands (40_framer.md) -/

/-- R110: NOP completes and writes nothing but STATUS. Issued with DONE already 1 it clears DONE and then sets it, so that
STATUS reads `0x00000002` and `irq` follows IE. -/
def Obligations.NopOnlyCompletes : Prop :=
  decode 0x00000000 = .ok .nop ∧
  ∀ s : State, exec .nop s = .next { s with eng := .idle, done := true, err := .ok } ∧
    (s.issue 0x00000000).done = false ∧
    ∃ t, exec .nop (s.issue 0x00000000) = .next t ∧ t.statusWord = 0x00000002 ∧ t.irq = s.ie

/-- R115: the encoding, the operands, the four bytes stored with the most significant first, and RANGE past
`DMEM_SIZE - 4`. -/
def Obligations.WruintStoresBigEndian : Prop :=
  decode 0x00000001 = .ok .wruint ∧
  ∀ s : State, ∃ t, exec .wruint s = .next t ∧ t.res = s.res ∧
    let addr := s.args[0].toNat
    let v := s.args[1]
    (addr + 4 ≤ 65536 →
      CompletedWith s t .ok ∧ MemSameOutside s t addr 4 ∧
      t.byteAt addr = v.extractLsb' 24 8 ∧ t.byteAt (addr + 1) = v.extractLsb' 16 8 ∧
      t.byteAt (addr + 2) = v.extractLsb' 8 8 ∧ t.byteAt (addr + 3) = v.extractLsb' 0 8) ∧
    (¬ addr + 4 ≤ 65536 → CompletedWith s t .range ∧ MemSame s t)

/-- R118: the encoding, the operand, the value read with the most significant byte first, and RANGE with RES0
unchanged. -/
def Obligations.RduintLoadsBigEndian : Prop :=
  decode 0x00000002 = .ok .rduint ∧
  ∀ s : State, ∃ t, exec .rduint s = .next t ∧ MemSame s t ∧ ResSameExcept s t [0] ∧
    let addr := s.args[0].toNat
    (addr + 4 ≤ 65536 →
      CompletedWith s t .ok ∧
      t.res[0] = s.byteAt addr ++ s.byteAt (addr + 1) ++ s.byteAt (addr + 2) ++ s.byteAt (addr + 3)) ∧
    (¬ addr + 4 ≤ 65536 → CompletedWith s t .range ∧ t.res = s.res)

/-- R120: the encoding, the operands, the checksum of any region of DMEM, and RANGE with RES0 unchanged. -/
def Obligations.CksumComputesAdler : Prop :=
  decode 0x00000003 = .ok .cksum ∧
  ∀ s : State, ∃ t, exec .cksum s = .next t ∧ MemSame s t ∧ ResSameExcept s t [0] ∧
    let a := s.args[0].toNat
    let n := s.args[1].toNat
    (a + n ≤ 65536 → CompletedWith s t .ok ∧ t.res[0].toNat = adler32 (s.dmem.readBytes a n)) ∧
    (¬ a + n ≤ 65536 → CompletedWith s t .range ∧ t.res = s.res)

/-- R125: the encoding, the operands, the checks in their order, the block written, and its checksum in RES0. -/
def Obligations.FrameBuildsABlock : Prop :=
  decode 0x00000004 = .ok .frame ∧
  ∀ s : State, ∃ t, exec .frame s = .next t ∧ ResSameExcept s t [0] ∧
    let dst := s.args[0].toNat
    let src := s.args[1].toNat
    let n := s.args[2].toNat
    let L := s.args[3].toNat
    let ord := s.args[4].toNat
    if ord > 255 then CompletedWith s t .range ∧ MemSame s t ∧ t.res = s.res
    else if src + n > 65536 then CompletedWith s t .range ∧ MemSame s t ∧ t.res = s.res
    else if dst + L > 65536 then CompletedWith s t .range ∧ MemSame s t ∧ t.res = s.res
    else if L < 5 + n + 4 then CompletedWith s t .frameSize ∧ MemSame s t ∧ t.res = s.res
    else if overlap dst L src n then CompletedWith s t .overlap ∧ MemSame s t ∧ t.res = s.res
    else
      CompletedWith s t .ok ∧ MemSameOutside s t dst L ∧
      let covered := [s.args[4].extractLsb' 0 8] ++ beBytes 4 n ++ s.dmem.readBytes src n ++ zeros (L - 4 - 5 - n)
      t.dmem.readBytes dst L = covered ++ beBytes 4 (adler32 covered) ∧
      t.res[0].toNat = adler32 covered

/-- R130: the encoding, the operands, the checks in their order, and the checksum stored and returned. -/
def Obligations.SealStoresTheChecksum : Prop :=
  decode 0x00000005 = .ok .sealBlock ∧
  ∀ s : State, ∃ t, exec .sealBlock s = .next t ∧ ResSameExcept s t [0] ∧
    let dst := s.args[0].toNat
    let L := s.args[1].toNat
    if dst + L > 65536 then CompletedWith s t .range ∧ MemSame s t ∧ t.res = s.res
    else if L < 4 then CompletedWith s t .frameSize ∧ MemSame s t ∧ t.res = s.res
    else
      CompletedWith s t .ok ∧ MemSameOutside s t (dst + L - 4) 4 ∧
      t.dmem.readBytes (dst + L - 4) 4 = beBytes 4 (adler32 (s.dmem.readBytes dst (L - 4))) ∧
      t.res[0].toNat = adler32 (s.dmem.readBytes dst (L - 4))

/-- R135, with R102 written out. -/
def Obligations.ValidateReportsTheBlock : Prop :=
  decode 0x00000006 = .ok .validate ∧
  ∀ s : State, ∃ t, exec .validate s = .next t ∧ MemSame s t ∧
    let a := s.args[0].toNat
    let L := s.args[1].toNat
    if a + L > 65536 then CompletedWith s t .range ∧ t.res = s.res
    else if L < 9 then CompletedWith s t .ok ∧ t.res = #v[0, 0, 0, 0]
    else
      CompletedWith s t .ok ∧
      t.res[0] = (s.byteAt a).setWidth 32 ∧
      t.res[1] = s.byteAt (a + 1) ++ s.byteAt (a + 2) ++ s.byteAt (a + 3) ++ s.byteAt (a + 4) ∧
      t.res[2] = (if t.res[3] = s.byteAt (a + L - 4) ++ s.byteAt (a + L - 3) ++ s.byteAt (a + L - 2) ++ s.byteAt (a + L - 1)
        then 1 else 0) ∧
      t.res[3].toNat = adler32 (s.dmem.readBytes a (L - 4))

/-! ### The codec commands (41_codec.md) -/

/-- R155: the encoding, the operands, the checks in their order, and the bytewise XOR of DMEM as at issue. -/
def Obligations.XorIsBytewise : Prop :=
  decode 0x00000008 = .ok .xor ∧
  ∀ s : State, ∃ t, exec .xor s = .next t ∧ t.res = s.res ∧
    let dst := s.args[0].toNat
    let a := s.args[1].toNat
    let b := s.args[2].toNat
    let n := s.args[3].toNat
    if a + n > 65536 ∨ b + n > 65536 ∨ dst + n > 65536 then CompletedWith s t .range ∧ MemSame s t
    else if (dst ≠ a ∧ overlap dst n a n) ∨ (dst ≠ b ∧ overlap dst n b n) then
      CompletedWith s t .overlap ∧ MemSame s t
    else
      CompletedWith s t .ok ∧ MemSameOutside s t dst n ∧
      ∀ k, k < n → t.byteAt (dst + k) = s.byteAt (a + k) ^^^ s.byteAt (b + k)

/-- R165: the checks in their order, the three blocks of `Encode` (R160) at the three destinations, and RES0..RES2. -/
def Obligations.EncodeWritesTheCodeword : Prop :=
  decode 0x00000009 = .ok .encode ∧
  ∀ s : State, ∃ t, exec .encode s = .next t ∧
    let src := s.args[0].toNat
    let n := s.args[1].toNat
    let dA := s.args[2].toNat
    let dB := s.args[3].toNat
    let dX := s.args[4].toNat
    let L := (n - n / 2) + 9
    if src + n > 65536 ∨ dA + L > 65536 ∨ dB + L > 65536 ∨ dX + L > 65536 then
      CompletedWith s t .range ∧ MemSame s t ∧ t.res = s.res
    else if overlap src n dA L ∨ overlap src n dB L ∨ overlap src n dX L ∨
        overlap dA L dB L ∨ overlap dA L dX L ∨ overlap dB L dX L then
      CompletedWith s t .overlap ∧ MemSame s t ∧ t.res = s.res
    else
      CompletedWith s t .ok ∧
      (∀ x, ¬ (dA ≤ x ∧ x < dA + L) → ¬ (dB ≤ x ∧ x < dB + L) → ¬ (dX ≤ x ∧ x < dX + L) → t.byteAt x = s.byteAt x) ∧
      t.dmem.readBytes dA L = (encodePayload (s.dmem.readBytes src n)).blkA ∧
      t.dmem.readBytes dB L = (encodePayload (s.dmem.readBytes src n)).blkB ∧
      t.dmem.readBytes dX L = (encodePayload (s.dmem.readBytes src n)).blkX ∧
      t.res = #v[BitVec.ofNat 32 L, BitVec.ofNat 32 (n / 2), BitVec.ofNat 32 (n - n / 2), s.res[3]]

/-- R161: the invariants of `Encode(p)`, for every payload. -/
def Obligations.EncodeInvariants : Prop :=
  (∀ p : List Byte,
    let n := p.length
    let lenA := n / 2
    let lenB := n - lenA
    let L := lenB + 9
    let c := encodePayload p
    (c.blkA.length = L ∧ c.blkB.length = L ∧ c.blkX.length = L) ∧
    (lenA + lenB = n ∧ lenB - lenA = n % 2) ∧
    (c.blkA[0]? = some 1 ∧ c.blkB[0]? = some 2 ∧ c.blkX[0]? = some 3) ∧
    (c.blkX.drop 1).take 4 = beBytes 4 (lenA ^^^ lenB) ∧
    c.blkX.take (L - 4) = xorBytes (c.blkA.take (L - 4)) (c.blkB.take (L - 4)) ∧
    c.blkA.take (L - 4) = xorBytes (c.blkB.take (L - 4)) (c.blkX.take (L - 4)) ∧
    c.blkB.take (L - 4) = xorBytes (c.blkA.take (L - 4)) (c.blkX.take (L - 4)) ∧
    (validateBlock c.blkA).good = true ∧ (validateBlock c.blkB).good = true ∧ (validateBlock c.blkX).good = true) ∧
  encodePayload [] =
    { blkA := [0x01, 0x00, 0x00, 0x00, 0x00, 0x00, 0x0a, 0x00, 0x02]
      blkB := [0x02, 0x00, 0x00, 0x00, 0x00, 0x00, 0x0f, 0x00, 0x03]
      blkX := [0x03, 0x00, 0x00, 0x00, 0x00, 0x00, 0x14, 0x00, 0x04] }

/-- The failures of DECODE before the decision table (R171, R176, R180): the first two checks, fewer than two good slots,
and two good slots that claim one role. Each leaves DMEM alone and reports its cause in RES3 and what it learned of the slots
in RES2. -/
def Obligations.DecodeFailuresAreReported : Prop :=
  ∀ s : State, ∃ t, exec .decode s = .next t ∧
    let claimed := fun i => roleCode (if slotGood s i then some (claimedRole (orderByte (slotBytes s i))) else none)
    let map := BitVec.ofNat 32 (goodMask s + 2 ^ 8 * (claimed 0 + 4 * claimed 1 + 16 * claimed 2))
    (¬ (slotLen s 0 = slotLen s 1 ∧ slotLen s 1 = slotLen s 2) →
      CompletedWith s t .sizeMismatch ∧ MemSame s t ∧ t.res = #v[0, 0, 0x00003F00, 1]) ∧
    ((∀ i, slotLen s i = slotLen s 0) → (∃ i, slotAddr s i + slotLen s i > 65536) →
      CompletedWith s t .range ∧ MemSame s t ∧ t.res = #v[0, 0, 0x00003F00, 5]) ∧
    (SlotsReadable s → (∃ i j, i ≠ j ∧ slotGood s i = false ∧ slotGood s j = false) →
      CompletedWith s t .unrecoverable ∧ MemSame s t ∧ t.res = #v[0, 0, map, 2]) ∧
    (SlotsReadable s → (∀ i j, i ≠ j → slotGood s i = true ∨ slotGood s j = true) →
      (∃ i j r, i ≠ j ∧ slotClaims s i r ∧ slotClaims s j r) →
      CompletedWith s t .unrecoverable ∧ MemSame s t ∧ t.res = #v[0, 0, map, 3])

/-- R172's fast path: A and B good. The payload is cut from A and B, with no check that X equals their XOR (R182); a bad X
is reported broken. -/
def Obligations.DecodeFastPath : Prop :=
  ∀ (s : State) (iA iB iX : Fin 3), SlotsReadable s → iA ≠ iB → iA ≠ iX → iB ≠ iX →
    slotClaims s iA .a → slotClaims s iB .b → (slotGood s iX = true → slotClaims s iX .x) →
    DecodeEnds s (declaredLength (slotBytes s iA)) (declaredLength (slotBytes s iB)) (slotBytes s iA) (slotBytes s iB)
      (if slotGood s iX then 0 else BitVec.ofNat 32 (2 ^ 8 + 2 * 2 ^ 4 + iX.val))
      (BitVec.ofNat 32 (goodMask s + 2 ^ 8 * (4 ^ iB.val + 2 * 4 ^ iX.val)))

/-- R172, A and X good, B bad: B's covered region is the XOR of theirs, its length is read from that header, and it is not
validated (R173). -/
def Obligations.DecodeRebuildsB : Prop :=
  ∀ (s : State) (iA iB iX : Fin 3), SlotsReadable s → iA ≠ iB → iA ≠ iX → iB ≠ iX →
    slotClaims s iA .a → slotGood s iB = false → slotClaims s iX .x →
    let L := slotLen s 0
    let R := xorBytes ((slotBytes s iA).take (L - 4)) ((slotBytes s iX).take (L - 4))
    DecodeEnds s (declaredLength (slotBytes s iA)) (declaredLength R) (slotBytes s iA) R
      (BitVec.ofNat 32 (2 ^ 8 + 1 * 2 ^ 4 + iB.val))
      (BitVec.ofNat 32 (goodMask s + 2 ^ 8 * (4 ^ iB.val + 2 * 4 ^ iX.val)))

/-- R172, B and X good, A bad: A's covered region is the XOR of theirs, its length is read from that header, and it is not
validated (R173). -/
def Obligations.DecodeRebuildsA : Prop :=
  ∀ (s : State) (iA iB iX : Fin 3), SlotsReadable s → iA ≠ iB → iA ≠ iX → iB ≠ iX →
    slotGood s iA = false → slotClaims s iB .b → slotClaims s iX .x →
    let L := slotLen s 0
    let R := xorBytes ((slotBytes s iB).take (L - 4)) ((slotBytes s iX).take (L - 4))
    DecodeEnds s (declaredLength R) (declaredLength (slotBytes s iB)) R (slotBytes s iB)
      (BitVec.ofNat 32 (2 ^ 8 + 0 * 2 ^ 4 + iA.val))
      (BitVec.ofNat 32 (goodMask s + 2 ^ 8 * (4 ^ iB.val + 2 * 4 ^ iX.val)))

/-- R183 (a) and (b): the three slots hold the blocks of `Encode(p)` in any order, and at most one of them has been altered
so that it is bad, whatever its bytes. DECODE delivers `p` and reports exactly the altered block. -/
def Obligations.DecodeRecoversThePayload : Prop :=
  ∀ (s : State) (p : List Byte) (iA iB iX : Fin 3),
    SlotsReadable s → slotLen s 0 = blockLength p.length → iA ≠ iB → iA ≠ iX → iB ≠ iX →
    (slotGood s iA = true → slotBytes s iA = (encodePayload p).blkA) →
    (slotGood s iB = true → slotBytes s iB = (encodePayload p).blkB) →
    (slotGood s iX = true → slotBytes s iX = (encodePayload p).blkX) →
    (∀ i j, i ≠ j → slotGood s i = true ∨ slotGood s j = true) →
    s.args[6].toNat + p.length ≤ Config.dmemSize →
    (∀ i, ¬ overlap s.args[6].toNat p.length (slotAddr s i) (slotLen s 0)) →
    ∃ t, exec .decode s = .next t ∧ CompletedWith s t .ok ∧
      MemSameOutside s t s.args[6].toNat p.length ∧
      t.dmem.readBytes s.args[6].toNat p.length = p ∧
      t.res[0].toNat = p.length ∧ t.res[3] = 0 ∧
      t.res[1] =
        if slotGood s iA = false then BitVec.ofNat 32 (0x100 + iA.val)
        else if slotGood s iB = false then BitVec.ofNat 32 (0x110 + iB.val)
        else if slotGood s iX = false then BitVec.ofNat 32 (0x120 + iX.val)
        else 0

/-- The round trip through the machine (R183 (a)): an ENCODE that completes, then a DECODE of its three destinations in any
order, delivers the payload ENCODE read. -/
def Obligations.EncodeThenDecodeReturnsThePayload : Prop :=
  ∀ (s t u : State) (iA iB iX : Fin 3),
    exec .encode s = .next t → t.err = .ok → u.dmem = t.dmem → iA ≠ iB → iA ≠ iX → iB ≠ iX →
    slotAddr u iA = s.args[2].toNat → slotAddr u iB = s.args[3].toNat → slotAddr u iX = s.args[4].toNat →
    (∀ i, slotLen u i = t.res[0].toNat) →
    u.args[6].toNat + s.args[1].toNat ≤ Config.dmemSize →
    (∀ i, ¬ overlap u.args[6].toNat s.args[1].toNat (slotAddr u i) (slotLen u 0)) →
    ∃ v, exec .decode u = .next v ∧ CompletedWith u v .ok ∧
      v.dmem.readBytes u.args[6].toNat s.args[1].toNat = s.dmem.readBytes s.args[0].toNat s.args[1].toNat ∧
      v.res[0] = s.args[1] ∧ v.res[1] = 0 ∧ v.res[3] = 0

/-- R181: DECODE on permuted slots ends with the same code, writes the same DMEM and the same RES0 and RES3, reports a slot
good and broken, and gives it a role, at the permuted index. -/
def Obligations.DecodeIsOrderIndependent : Prop :=
  ∀ (s u : State) (perm : Equiv.Perm (Fin 3)),
    u.dmem = s.dmem → u.args[6] = s.args[6] →
    (∀ i, slotAddr u i = slotAddr s (perm i)) → (∀ i, slotLen u i = slotLen s (perm i)) →
    ∃ t v, exec .decode s = .next t ∧ exec .decode u = .next v ∧
      v.err = t.err ∧ v.dmem = t.dmem ∧ v.res[0] = t.res[0] ∧ v.res[3] = t.res[3] ∧
      (∀ i, v.res[2].getLsbD i.val = t.res[2].getLsbD (perm i).val) ∧
      (∀ i, v.res[2].extractLsb' (8 + 2 * i.val) 2 = t.res[2].extractLsb' (8 + 2 * (perm i).val) 2) ∧
      (v.res[1] = 0 ↔ t.res[1] = 0) ∧
      ∀ (i : Fin 3) (role : Nat), role < 4 →
        (v.res[1].toNat = 0x100 + 16 * role + i.val ↔ t.res[1].toNat = 0x100 + 16 * role + (perm i).val)

/-! ### Pure functions (00_scope.md, 40_framer.md) -/

/-- R101: the three properties of Adler-32; "a block that is entirely zero bytes is never good". -/
def Obligations.AdlerProperties : Prop :=
  adler32 [] = 0x00000001 ∧
  (∀ s : List Byte, adler32 s % 65536 < 65521 ∧ adler32 s / 65536 < 65521) ∧
  (∀ k, adler32 (zeros k) = (k % 65521) * 65536 + 1) ∧
  ∀ k, (validateBlock (zeros k)).good = false

/-- R100 as the two sums it reduces: `s1` is one more than the sum of the bytes, `s2` the sum of the running values of `s1`,
each modulo 65521. The sums are written without any intermediate reduction. -/
def Obligations.AdlerIsTwoSums : Prop :=
  ∀ s : List Byte,
    adler32 s =
      ((s.length + ((List.range s.length).map fun i => (s.length - i) * (s[i]?.getD 0).toNat).sum) % 65521) * 65536 +
        (1 + (s.map BitVec.toNat).sum) % 65521

/-- R10: the big-endian codec's two round trips, and its most significant byte first. -/
def Obligations.BigEndianCodecRoundTrips : Prop :=
  (∀ n v, (beBytes n v).length = n) ∧
  (∀ n v i, i < n → (beBytes n v)[i]? = some (BitVec.ofNat 8 (v >>> (8 * (n - 1 - i))))) ∧
  (∀ n v, v < 2 ^ (8 * n) → beValue (beBytes n v) = v) ∧
  (∀ s : List Byte, beBytes s.length (beValue s) = s) ∧
  ∀ s : List Byte, beValue s = ((List.range s.length).map fun i => (s[i]?.getD 0).toNat * 2 ^ (8 * (s.length - 1 - i))).sum

/-! ### The register window (10_state.md section 4, 20_memory.md, 70_reset_and_hazards.md R241)

That the host moves next with an access at the head of its program is how these statements say that the host performs the
access now; the program, the values read and the turns are the model's own fields (logs 5 and 6). -/

/-- R31, R32: ID and CONFIG read their hardwired values, whatever the engine does, and a write of them changes nothing. (A
write of one while BUSY: `BusyHoldsTheBus`.) -/
def Obligations.IdAndConfigAreHardwired : Prop :=
  ∀ (s : State) (offset : Word) (rest : List HostOp), nextTurn s = .host →
    (s.bus = .rd .word offset :: rest → offset.toNat % 4096 = 0x000 →
      step s = .next { popped s with bus := rest, reads := s.reads ++ [0x45524631] }) ∧
    (s.bus = .rd .word offset :: rest → offset.toNat % 4096 = 0x004 →
      step s = .next { popped s with bus := rest, reads := s.reads ++ [0x01100044] }) ∧
    ∀ v, s.eng = .idle → s.bus = .wr .word offset v :: rest →
      offset.toNat % 4096 = 0x000 ∨ offset.toNat % 4096 = 0x004 → step s = .next { popped s with bus := rest }

/-- R33: CTRL reads IE zero-extended; a write with bit 1 set is the soft reset, any other sets IE to bit 0 and nothing
else. -/
def Obligations.CtrlHoldsOnlyIe : Prop :=
  ∀ (s : State) (offset : Word) (rest : List HostOp), nextTurn s = .host → s.eng = .idle → offset.toNat % 4096 = 0x008 →
    (s.bus = .rd .word offset :: rest →
      step s = .next { popped s with bus := rest, reads := s.reads ++ [if s.ie then 1 else 0] }) ∧
    ∀ v, s.bus = .wr .word offset v :: rest →
      step s = .next
        (if v.getLsbD 1 then (consumed s rest).resetRegisters else { popped s with bus := rest, ie := v.getLsbD 0 })

/-- R34: the fields of STATUS as read, at any time, and the write-1-to-clear of DONE, which clears ERR with it; while BUSY,
DONE and ERR are 0 and a STATUS write has no effect (in the states of the invariant). -/
def Obligations.StatusReadsAndClears : Prop :=
  ∀ (s : State) (offset : Word) (rest : List HostOp), nextTurn s = .host → offset.toNat % 4096 = 0x00C →
    (s.bus = .rd .word offset :: rest →
      ∃ w : Word, step s = .next { popped s with bus := rest, reads := s.reads ++ [w] } ∧
        (w.getLsbD 0 = true ↔ ∃ c, s.eng = .busy c) ∧ w.getLsbD 1 = s.done ∧ w.extractLsb' 2 2 = 0 ∧
        w.extractLsb' 4 4 = errorCode s.err ∧ w.extractLsb' 8 8 = s.lastop ∧ w.extractLsb' 16 16 = 0) ∧
    (∀ v, s.bus = .wr .word offset v :: rest →
      step s = .next
        (if v.getLsbD 1 = true ∧ s.done = true then { popped s with bus := rest, done := false, err := .ok }
        else { popped s with bus := rest })) ∧
    (Inv s → s.eng ≠ .idle →
      s.done = false ∧ s.err = .ok ∧
        ∀ v, s.bus = .wr .word offset v :: rest → step s = .next { popped s with bus := rest })

/-- R200: the code numbers of STATUS.ERR; 8..15 never read, in any state. -/
def Obligations.ErrorCodeNumbers : Prop :=
  (errorCode .ok = 0 ∧ errorCode .sizeMismatch = 1 ∧ errorCode .sizeOverflow = 2 ∧ errorCode .unrecoverable = 3 ∧
    errorCode .illegalCmd = 4 ∧ errorCode .range = 5 ∧ errorCode .overlap = 6 ∧ errorCode .frameSize = 7) ∧
  ∀ s : State, s.statusWord.toNat / 16 % 16 < 8

/-- R21: an ARG register reads back what was written; a write of one sets all its bits and changes that one alone; no
command writes one; each is 0 at reset. -/
def Obligations.ArgsReadAndWrite : Prop :=
  (∀ (s : State) (offset : Word) (rest : List HostOp) (i : Fin 8), nextTurn s = .host → s.eng = .idle →
    offset.toNat % 4096 = 0x020 + 4 * i.val →
    (s.bus = .rd .word offset :: rest →
      step s = .next { popped s with bus := rest, reads := s.reads ++ [s.args[i]] }) ∧
    ∀ v, s.bus = .wr .word offset v :: rest →
      ∃ t, step s = .next t ∧ t = { popped s with bus := rest, args := t.args } ∧ t.args[i] = v ∧
        ∀ j : Fin 8, j ≠ i → t.args[j] = s.args[j]) ∧
  (∀ (i : Instr) (s t : State), exec i s = .next t → t.args = s.args) ∧
  ∀ i : Fin 8, State.reset.args[i] = 0

/-- R22, R35: RES reads its value and ignores a write; CMD reads 0. -/
def Obligations.ResIsReadOnlyAndCmdReadsZero : Prop :=
  ∀ (s : State) (offset : Word) (rest : List HostOp), nextTurn s = .host → s.eng = .idle →
    (∀ i : Fin 4, offset.toNat % 4096 = 0x040 + 4 * i.val →
      (s.bus = .rd .word offset :: rest →
        step s = .next { popped s with bus := rest, reads := s.reads ++ [s.res[i]] }) ∧
      ∀ v, s.bus = .wr .word offset v :: rest → step s = .next { popped s with bus := rest }) ∧
    (offset.toNat % 4096 = 0x010 → s.bus = .rd .word offset :: rest →
      step s = .next { popped s with bus := rest, reads := s.reads ++ [0] })

/-- R36, the register: a host write of DADDR sets all 32 bits and a read returns them. -/
def Obligations.DaddrReadsAndWrites : Prop :=
  ∀ (s : State) (offset : Word) (rest : List HostOp), nextTurn s = .host → s.eng = .idle → offset.toNat % 4096 = 0x050 →
    (s.bus = .rd .word offset :: rest →
      step s = .next { popped s with bus := rest, reads := s.reads ++ [s.daddr] }) ∧
    ∀ v, s.bus = .wr .word offset v :: rest → step s = .next { popped s with bus := rest, daddr := v }

/-- R37 and the increment of R36: a DDATA access moves the byte at DADDR, in range, and advances DADDR modulo 2^32; out of
range a read returns 0, a write does nothing, and DADDR advances all the same. -/
def Obligations.DdataIsAPortOntoDmem : Prop :=
  ∀ (s : State) (offset : Word) (rest : List HostOp), nextTurn s = .host → s.eng = .idle → offset.toNat % 4096 = 0x054 →
    let a := s.daddr.toNat
    let next := BitVec.ofNat 32 ((a + 1) % 2 ^ 32)
    (s.bus = .rd .word offset :: rest →
      step s = .next { popped s with
        bus := rest, daddr := next, reads := s.reads ++ [if a < 65536 then (s.byteAt a).setWidth 32 else 0] }) ∧
    ∀ v, s.bus = .wr .word offset v :: rest →
      ∃ t, step s = .next t ∧ t = { popped s with bus := rest, daddr := next, dmem := t.dmem } ∧
        (if a < 65536 then t.byteAt a = v.extractLsb' 0 8 ∧ MemSameOutside s t a 1 else t.dmem = s.dmem)

/-- R59 with R241: a misaligned or reserved offset reads 0 and ignores writes, with no other change. That the access is
performed at once while the engine executes a command too is the model's reading: R241 says so, and R61 does not list it among
the accesses performed then (log 10, DEDUCED). -/
def Obligations.ReservedOffsetsReadZero : Prop :=
  ∀ (s : State) (offset : Word) (rest : List HostOp), nextTurn s = .host →
    let o := offset.toNat % 4096
    o % 4 ≠ 0 ∨ (0x014 ≤ o ∧ o < 0x020) ∨ 0x058 ≤ o →
    (s.bus = .rd .word offset :: rest →
      step s = .next { popped s with bus := rest, reads := s.reads ++ [0] }) ∧
    ∀ v, s.bus = .wr .word offset v :: rest → step s = .next { popped s with bus := rest }

/-- R60: an access narrower than 32 bits is outside the interface and is refused; nothing else ever stops the machine. -/
def Obligations.OnlyNarrowAccessesStop : Prop :=
  ∀ (s : State) (r : Refusal), step s = .refused r ↔
    r = .narrowAccess ∧ nextTurn s = .host ∧ ∃ op rest, s.bus = op :: rest ∧ ¬ op.WellFormed

/-- R241: while the engine executes a command, an access to CTRL, CMD, ARG, RES, DADDR or DDATA is held: the host's turn
changes nothing, and the access stays at the head of the host's program. A write of ID or CONFIG is performed at once, without
effect: the model's reading, since R61 does not list it among the accesses performed while a command executes (log 9). -/
def Obligations.BusyHoldsTheBus : Prop :=
  ∀ (s : State) (w offset : Word) (op : HostOp) (rest : List HostOp), s.eng = .busy w → nextTurn s = .host →
    s.bus = op :: rest → (op = .rd .word offset ∨ ∃ v, op = .wr .word offset v) →
    let o := offset.toNat % 4096
    (o % 4 = 0 → (o = 0x008 ∨ o = 0x010 ∨ (0x020 ≤ o ∧ o ≤ 0x054)) → step s = .next (popped s)) ∧
    ∀ v, op = .wr .word offset v → o = 0x000 ∨ o = 0x004 → step s = .next { popped s with bus := rest }

/-- R61: whatever the host does while a command executes, the command, its operands, DMEM, the RES registers, CTRL, DADDR,
LASTOP and, from a state of the invariant, STATUS stay as they are. -/
def Obligations.HostCannotDisturbACommand : Prop :=
  ∀ (s t : State) (w : Word), Inv s → s.eng = .busy w → nextTurn s = .host → step s = .next t →
    t.eng = s.eng ∧ t.args = s.args ∧ t.dmem = s.dmem ∧ t.res = s.res ∧ t.ie = s.ie ∧ t.daddr = s.daddr ∧
      t.statusWord = s.statusWord

/-- The end of R241: "a host that reads a RES register right after a CMD write reads the completed command's result". The
read waits through any number of the host's turns, and is performed in the host's first turn after the completion. -/
def Obligations.HeldReadReturnsTheResult : Prop :=
  ∀ (s t : State) (w offset : Word) (i : Instr) (k : Fin 4) (rest : List HostOp) (turns : List Turn) (n : Nat),
    s.eng = .busy w → decode w = .ok i → exec i s = .next t →
    s.bus = .rd .word offset :: rest → offset.toNat % 4096 = 0x040 + 4 * k.val →
    s.schedule = List.replicate n .host ++ .engine :: .host :: turns →
    Sys2Proof.core.run (n + 2) s = .next { t with
      bus := rest, reads := s.reads ++ [t.res[k]], schedule := turns }

/-- R76: `wait` ends when STATUS reads `BUSY = 0`, and until then stays where it is. -/
def Obligations.WaitPollsBusy : Prop :=
  ∀ (s : State) (rest : List HostOp), nextTurn s = .host → s.bus = .wait :: rest →
    (s.eng = .idle → step s = .next { popped s with bus := rest }) ∧
    (s.eng ≠ .idle → step s = .next (popped s))

/-- R77: a command pseudo-instruction with its operands, run on an idle machine by the host alone, leaves those operands in
ARG0.. in order, the other ARG registers as they were, and the command issued. -/
def Obligations.CommandPseudoIssuesWithOperands : Prop :=
  ∀ (s : State) (i : Instr) (operands : List Word), s.eng = .idle → s.schedule = [] →
    (HostPseudo.command i operands).WellFormed → s.bus = assembleProgram [.command i operands] →
    ∃ t : State, Sys2Proof.core.run (operands.length + 1) s = .next t ∧
      t.eng = .busy (encode i) ∧ t.done = false ∧ t.err = .ok ∧ t.lastop = opcode i ∧ t.bus = [] ∧
      (∀ k : Fin 8, t.args[k] = (operands[k.val]?).getD s.args[k]) ∧
      t.ie = s.ie ∧ t.res = s.res ∧ t.daddr = s.daddr ∧ t.dmem = s.dmem ∧ t.reads = s.reads

/-- R77 with R36 and R37: `poke` then `peek` of one region of DMEM, run on an idle machine by the host alone, stores the
bytes there, changes no other byte, and reads them back in order. -/
def Obligations.PokeThenPeekReturnsTheBytes : Prop :=
  ∀ (s : State) (addr : Word) (bytes : List Byte), s.eng = .idle → s.schedule = [] →
    addr.toNat + bytes.length ≤ Config.dmemSize →
    s.bus = assembleProgram [.poke addr bytes, .peek addr bytes.length] →
    ∃ t : State, Sys2Proof.core.run (2 * bytes.length + 2) s = .next t ∧
      t = { s with
        bus := [], daddr := BitVec.ofNat 32 (addr.toNat + bytes.length), dmem := t.dmem
        reads := s.reads ++ bytes.map fun b => b.setWidth 32 } ∧
      t.dmem.readBytes addr.toNat bytes.length = bytes ∧ MemSameOutside s t addr.toNat bytes.length

/-! ### Interrupt (60_exceptions.md section 3) -/

/-- R209: `irq` is IE AND DONE; a completion raises it exactly when CTRL.IE is 1, success or error; the W1C write of DONE,
the issue of a command, clearing CTRL.IE (which leaves DONE as it is) and a reset each drop it. -/
def Obligations.InterruptFollowsCompletion : Prop :=
  (∀ s : State, s.irq = (s.ie && s.done)) ∧
  (∀ (i : Instr) (s t : State), exec i s = .next t → t.irq = s.ie) ∧
  (∀ (s : State) (v : Word), v.getLsbD 1 = true → (s.writeStatus v).irq = false) ∧
  (∀ (s : State) (w : Word), (s.issue w).irq = false) ∧
  (∀ (s : State) (v : Word), v.getLsbD 0 = false → v.getLsbD 1 = false →
    (s.writeCtrl v).irq = false ∧ (s.writeCtrl v).done = s.done) ∧
  ∀ s : State, s.resetRegisters.irq = false ∧ s.hardwareReset.irq = false

/-! ### Reset (70_reset_and_hazards.md section 1) -/

/-- R42: the values of every register after power-on (`State.reset`), after the soft reset (`resetRegisters`) and after the
hardware reset; DMEM is not reset: nothing is written at power-on, the soft reset and the hardware reset of an idle engine
change no byte. -/
def Obligations.ResetValues : Prop :=
  (∀ s u : State, u = State.reset ∨ u = s.resetRegisters ∨ u = s.hardwareReset →
    u.regValue .id = 0x45524631 ∧ u.regValue .config = 0x01100044 ∧
    u.ctrlWord = 0x00000000 ∧ u.ie = false ∧
    u.statusWord = 0x00000000 ∧ u.busy = false ∧ u.done = false ∧ u.err = .ok ∧ u.lastop = 0 ∧
    (∀ i : Fin 8, u.args[i] = 0x00000000) ∧ (∀ i : Fin 4, u.res[i] = 0x00000000) ∧
    u.daddr = 0x00000000 ∧ u.eng = .idle ∧ u.irq = false) ∧
  State.reset.dmem = [] ∧
  ∀ s : State, s.resetRegisters.dmem = s.dmem ∧ (s.eng = .idle → s.hardwareReset.dmem = s.dmem)

/-- R232: a CTRL write with bit 1 set is performed only when the engine is idle; every register then has its reset value,
IE too whatever bit 0 was, and DMEM is unchanged; a CTRL write with bit 1 clear sets IE and nothing else. -/
def Obligations.SoftReset : Prop :=
  ∀ (s : State) (offset v : Word) (rest : List HostOp), nextTurn s = .host →
    s.bus = .wr .word offset v :: rest → offset.toNat % 4096 = 0x008 →
    (v.getLsbD 1 = true → s.eng = .idle →
      step s = .next { State.reset with
        dmem := s.dmem, bus := rest, reads := s.reads, schedule := s.schedule.tail, draws := s.draws }) ∧
    (v.getLsbD 1 = true → s.eng ≠ .idle → step s = .next (popped s)) ∧
    (v.getLsbD 1 = false → s.eng = .idle → step s = .next { popped s with bus := rest, ie := v.getLsbD 0 })

/-- R231 with R233 for an idle engine: the hardware reset sets every register to its reset value and changes no DMEM byte. -/
def Obligations.HardwareResetWhileIdle : Prop :=
  ∀ s : State, nextTurn s = .rst → s.eng = .idle →
    step s = .next { State.reset with
      dmem := s.dmem, bus := s.bus, reads := s.reads, schedule := s.schedule.tail, draws := s.draws }

/-- R231, R233 for a busy engine: the command is aborted and reports nothing, every register has its reset value, and every
DMEM byte outside the regions the command would have written is unchanged; had the command failed, or were the word illegal, no byte changes. What the
bytes inside hold is a free value, of which nothing is said. That the regions are those of the command's completion on the
state is the model's reading (log 3). -/
def Obligations.HardwareResetAbortsACommand : Prop :=
  (∀ (s : State) (w : Word), nextTurn s = .rst → s.eng = .busy w → ¬ LegalWord w →
    step s = .next { State.reset with
      dmem := s.dmem, bus := s.bus, reads := s.reads, schedule := s.schedule.tail, draws := s.draws + 1 }) ∧
  ∀ (s : State) (w : Word) (i : Instr), nextTurn s = .rst → s.eng = .busy w → decode w = .ok i →
    ∃ t u, step s = .next t ∧ exec i s = .next u ∧
      t = { State.reset with
        dmem := t.dmem, bus := s.bus, reads := s.reads, schedule := s.schedule.tail, draws := s.draws + 1 } ∧
      (u.err ≠ .ok → MemSame s t) ∧
      ∀ x, (∀ d ∈ (commandEffect i s).writes, ¬ (d.1 ≤ x ∧ x < d.1 + d.2.length)) → t.byteAt x = s.byteAt x

/-! ### Whole-machine rules -/

/-- The invariant holds after reset. -/
def Obligations.InvariantHoldsAtReset : Prop := Inv State.reset

/-- Every step keeps the invariant: DMEM stays in canonical form inside `0 .. DMEM_SIZE-1`, ERR is 0 unless DONE is set, ERR
is never SIZE_OVERFLOW, and while BUSY, DONE is 0 and LASTOP is the latched word's opcode (R34, R38, R40, R201). -/
def Obligations.StepKeepsTheInvariant : Prop :=
  ∀ s t : State, Inv s → step s = .next t → Inv t

/-- R41: "DONE is set only by completion and cleared by command issue, the W1C write of rule R34 and reset"; "BUSY is written
only by command issue and completion" and, R231, by the hardware reset. -/
def Obligations.WhoChangesDoneAndBusy : Prop :=
  ∀ s t : State, step s = .next t →
    (s.done = false → t.done = true → nextTurn s = .engine ∧ (∃ w, s.eng = .busy w) ∧ t.eng = .idle) ∧
    (s.done = true → t.done = false → nextTurn s = .rst ∨
      (nextTurn s = .host ∧ ∃ offset v rest, s.bus = .wr .word offset v :: rest ∧
        ((offset.toNat % 4096 = 0x010 ∧ t.eng = .busy v) ∨
          (offset.toNat % 4096 = 0x00C ∧ v.getLsbD 1 = true) ∨
          (offset.toNat % 4096 = 0x008 ∧ v.getLsbD 1 = true)))) ∧
    (s.eng = .idle → ∀ w, t.eng = .busy w → nextTurn s = .host ∧
      ∃ offset rest, s.bus = .wr .word offset w :: rest ∧ offset.toNat % 4096 = 0x010) ∧
    (∀ w, s.eng = .busy w → t.eng ≠ s.eng → t.eng = .idle ∧ (nextTurn s = .engine ∨ nextTurn s = .rst))

/-- R20, R21, R22: the host alone writes ARG registers, by a write of that register; the engine alone writes RES registers, by
completing a command; besides that, a reset (`rst`, or the CTRL write of R232 performed while idle) sets either to its reset
value. -/
def Obligations.WhoWritesArgAndRes : Prop :=
  ∀ s t : State, step s = .next t →
    (∀ i : Fin 8, t.args[i] ≠ s.args[i] →
      (ResetsNext s ∧ t.args = State.reset.args) ∨
      (nextTurn s = .host ∧ s.eng = .idle ∧ ∃ offset rest, s.bus = .wr .word offset t.args[i] :: rest ∧
        offset.toNat % 4096 = 0x020 + 4 * i.val)) ∧
    (t.res ≠ s.res →
      (ResetsNext s ∧ t.res = State.reset.res) ∨ (nextTurn s = .engine ∧ t.done = true ∧ ∃ w, s.eng = .busy w))

/-- R20, R40, R233: a DMEM byte changes only by a completion without error, by a DDATA write at DADDR, or by a hardware reset
that aborts a command. -/
def Obligations.WhoWritesDmem : Prop :=
  ∀ (s t : State) (x : Nat), step s = .next t → t.byteAt x ≠ s.byteAt x →
    (nextTurn s = .engine ∧ t.err = .ok ∧ ∃ w, s.eng = .busy w) ∨
    (nextTurn s = .host ∧ s.eng = .idle ∧ x = s.daddr.toNat ∧
      ∃ offset v rest, s.bus = .wr .word offset v :: rest ∧ offset.toNat % 4096 = 0x054) ∨
    (nextTurn s = .rst ∧ ∃ w, s.eng = .busy w)
end

