-- ==== Sys2Proof/Laws/Bytes.lean ====
section
/-! SUPPORT. The laws of the byte sequences: lengths and round trips of the big-endian codec, XOR, and the bounds of
Adler-32. -/

namespace Sys2Proof.Machine

/-! ### The big-endian codec (00_scope.md R10) -/

@[simp] theorem beBytes_length (n v : Nat) : (beBytes n v).length = n := by
  induction n with
  | zero => rfl
  | succ n ih => simp [beBytes, ih]

theorem beValue_lt (s : List Byte) : beValue s < 2 ^ (8 * s.length) := by
  induction s with
  | nil => simp [beValue]
  | cons b rest ih =>
    have hb : b.toNat + 1 ≤ 2 ^ 8 := b.isLt
    have := Nat.mul_le_mul_right (2 ^ (8 * rest.length)) hb
    rw [← Nat.pow_add] at this
    simp only [beValue, List.length_cons]
    rw [show 8 * (rest.length + 1) = 8 + 8 * rest.length by omega]
    rw [Nat.add_mul] at this
    omega

/-- `BE_N` keeps the low `8 * N` bits, whatever the value. -/
theorem beValue_beBytes_mod (n v : Nat) : beValue (beBytes n v) = v % 2 ^ (8 * n) := by
  induction n with
  | zero => simp [beBytes, beValue, Nat.mod_one]
  | succ n ih =>
    rw [beBytes, beValue, ih, beBytes_length, BitVec.toNat_ofNat, Nat.shiftRight_eq_div_pow,
      show 8 * (n + 1) = 8 * n + 8 by omega, Nat.pow_add, Nat.mod_mul (x := v) (a := 2 ^ (8 * n)) (b := 2 ^ 8)]
    ring

theorem beValue_beBytes_of_lt {n v : Nat} (h : v < 2 ^ (8 * n)) : beValue (beBytes n v) = v := by
  rw [beValue_beBytes_mod, Nat.mod_eq_of_lt h]

/-- `BE_N` sees only the value's low `8 * N` bits. -/
theorem beBytes_mod (n k v : Nat) (h : n ≤ k) : beBytes n (v % 2 ^ (8 * k)) = beBytes n v := by
  induction n with
  | zero => rfl
  | succ n ih =>
    rw [beBytes, beBytes, ih (by omega)]
    congr 1
    apply BitVec.eq_of_toNat_eq
    simp only [BitVec.toNat_ofNat, Nat.shiftRight_eq_div_pow]
    rw [show 8 * k = 8 * n + (8 * k - 8 * n) by omega, Nat.pow_add, Nat.mod_mul_right_div_self]
    exact Nat.mod_mod_of_dvd _ (Nat.pow_dvd_pow 2 (by omega))

/-- The other round trip, for a sequence of the width read. -/
theorem beBytes_beValue_of_length {n : Nat} (s : List Byte) (h : s.length = n) : beBytes n (beValue s) = s := by
  induction s generalizing n with
  | nil => subst h; rfl
  | cons b rest ih =>
    subst h
    have hlt := beValue_lt rest
    rw [List.length_cons, beBytes]
    congr 1
    · apply BitVec.eq_of_toNat_eq
      rw [BitVec.toNat_ofNat, Nat.shiftRight_eq_div_pow, beValue, Nat.mul_comm,
        Nat.mul_add_div (Nat.two_pow_pos _), Nat.div_eq_of_lt hlt, Nat.add_zero, Nat.mod_eq_of_lt b.isLt]
    · rw [← beBytes_mod _ rest.length _ le_rfl, beValue, Nat.mul_comm, Nat.mul_add_mod, Nat.mod_eq_of_lt hlt,
        ih rfl]

/-! ### XOR (00_scope.md R9, 41_codec.md R150) -/

@[simp] theorem xorBytes_length (a b : List Byte) : (xorBytes a b).length = min a.length b.length := by
  simp [xorBytes]

theorem xorBytes_getElem? (a b : List Byte) (i : Nat) :
    (xorBytes a b)[i]? = (a[i]?.bind fun x => b[i]?.map fun y => x ^^^ y) := by
  simp only [xorBytes, List.getElem?_zipWith]
  cases a[i]? <;> cases b[i]? <;> rfl

theorem xorBytes_comm (a b : List Byte) : xorBytes a b = xorBytes b a :=
  List.zipWith_comm_of_comm fun x y => BitVec.xor_comm x y

/-- XOR with the same sequence twice gives back the sequence: the reconstruction of 41_codec.md R173. -/
theorem xorBytes_cancel (a b : List Byte) (h : a.length = b.length) : xorBytes a (xorBytes a b) = b := by
  induction a generalizing b with
  | nil => simp [xorBytes, List.length_eq_zero_iff.1 h.symm]
  | cons x rest ih =>
    cases b with
    | nil => simp at h
    | cons y rest' =>
      have := ih rest' (by simpa using h)
      simp only [xorBytes] at this
      simp [xorBytes, this]

theorem xorBytes_append (a b a' b' : List Byte) (h : a.length = b.length) :
    xorBytes (a ++ a') (b ++ b') = xorBytes a b ++ xorBytes a' b' := by
  simp [xorBytes, List.zipWith_append h]

theorem xorBytes_take (a b : List Byte) (n : Nat) :
    (xorBytes a b).take n = xorBytes (a.take n) (b.take n) := by
  simp [xorBytes, List.take_zipWith]

theorem xorBytes_drop (a b : List Byte) (n : Nat) :
    (xorBytes a b).drop n = xorBytes (a.drop n) (b.drop n) := by
  simp [xorBytes, List.drop_zipWith]

/-- The XOR of two big-endian encodings encodes the XOR of the values. -/
theorem xorBytes_beBytes (n u v : Nat) : xorBytes (beBytes n u) (beBytes n v) = beBytes n (u ^^^ v) := by
  induction n with
  | zero => rfl
  | succ n ih =>
    simp only [xorBytes] at ih
    simp only [beBytes, xorBytes, List.zipWith_cons_cons, ih]
    congr 1
    rw [Nat.shiftRight_xor_distrib, BitVec.ofNat_xor]

@[simp] theorem zeros_length (n : Nat) : (zeros n).length = n := by simp [zeros]

/-! ### Adler-32 (40_framer.md R100) -/

theorem adler_fold_lt (s : List Byte) (p : Nat × Nat) (h : p.1 < adlerModulus ∧ p.2 < adlerModulus) :
    (s.foldl adlerStep p).1 < adlerModulus ∧ (s.foldl adlerStep p).2 < adlerModulus := by
  induction s generalizing p with
  | nil => exact h
  | cons b rest ih =>
    exact ih _ ⟨Nat.mod_lt _ (by decide), Nat.mod_lt _ (by decide)⟩

/-- A checksum fits 32 bits: "every result that lands in a 32-bit register is below `2^32`" (00_scope.md R14). -/
theorem adler32_lt (s : List Byte) : adler32 s < 2 ^ 32 := by
  obtain ⟨h1, h2⟩ := adler_fold_lt s (1, 0) (by decide)
  simp only [adler32]
  simp only [adlerModulus] at h1 h2
  omega

/-- Zero bytes leave `s1` alone and add it to `s2` each time. -/
theorem adler_fold_zeros (k s1 s2 : Nat) (h1 : s1 < adlerModulus) :
    (zeros k).foldl adlerStep (s1, s2 % adlerModulus) = (s1, (s2 + k * s1) % adlerModulus) := by
  induction k generalizing s2 with
  | zero => simp [zeros]
  | succ k ih =>
    have hstep : adlerStep (s1, s2 % adlerModulus) 0 = (s1, (s2 + s1) % adlerModulus) := by
      simp [adlerStep, Nat.mod_eq_of_lt h1]
    rw [zeros, List.replicate_succ, List.foldl_cons, hstep]
    rw [← zeros, ih]
    congr 2
    ring

end Sys2Proof.Machine
end

