-- ==== Sys2Proof/Laws/Block.lean ====
section
/-! SUPPORT. The laws of blocks: the parts of a sealed and a framed block, and the three blocks of a codeword. -/

namespace Sys2Proof.Machine

/-! ### Sealed blocks (40_framer.md R103) -/

@[simp] theorem sealRegion_length (c : List Byte) : (sealRegion c).length = c.length + Config.ckW := by
  simp [sealRegion]

@[simp] theorem coveredRegion_seal (c : List Byte) : coveredRegion (sealRegion c) = c := by
  simp [coveredRegion, sealRegion]

@[simp] theorem checksumField_seal (c : List Byte) :
    checksumField (sealRegion c) = beBytes Config.ckW (adler32 c) := by
  simp [checksumField, sealRegion]

theorem coveredRegion_eq_take (blk : List Byte) : coveredRegion blk = blk.take (blk.length - 4) := rfl

@[simp] theorem coveredRegion_length (blk : List Byte) : (coveredRegion blk).length = blk.length - Config.ckW := by
  simp [coveredRegion]

/-- A sealed region long enough to be a block is good: its stored checksum is the one recomputed. -/
theorem validateBlock_seal (c : List Byte) (h : Config.hdr ≤ c.length) :
    validateBlock (sealRegion c) =
      { order := orderByte c, declared := declaredLength c, good := true, comp := adler32 c } := by
  have hc : ¬ (sealRegion c).length < Config.hdr + Config.ckW := by simp at h ⊢; omega
  have hv : beValue (beBytes Config.ckW (adler32 c)) = adler32 c := beValue_beBytes_of_lt (adler32_lt c)
  have ho : orderByte (sealRegion c) = orderByte c := by
    cases c with
    | nil => simp at h
    | cons b rest => rfl
  have hd : declaredLength (sealRegion c) = declaredLength c := by
    simp only [declaredLength, sealRegion, Config.orderW_val, Config.lenW_val]
    rw [List.drop_append_of_le_length (by simp at h; omega),
      List.take_append_of_le_length (by simp at h ⊢; omega)]
  rw [validateBlock, if_neg hc, coveredRegion_seal, checksumField_seal, hv, ho, hd]
  simp

/-- A good block is at least `HDR + CK_W` long (40_framer.md R102). -/
theorem length_of_good {blk : List Byte} (h : (validateBlock blk).good = true) : 9 ≤ blk.length := by
  by_contra hlt
  rw [validateBlock, if_pos (by simp; omega)] at h
  exact Bool.false_ne_true h

/-- What `Validate` returns for a block of full length. -/
theorem validateBlock_of_length {blk : List Byte} (h : 9 ≤ blk.length) :
    validateBlock blk =
      { order := orderByte blk, declared := declaredLength blk,
        good := adler32 (coveredRegion blk) == beValue (checksumField blk), comp := adler32 (coveredRegion blk) } := by
  rw [validateBlock, if_neg (by simp; omega)]

/-! ### Framed blocks (40_framer.md R104) -/

/-- The covered region of a frame: order, length field, payload, zero padding (20_memory.md R55). -/
def frameCovered (ord : Byte) (p : List Byte) (cap : Nat) : List Byte :=
  [ord] ++ beBytes Config.lenW p.length ++ p ++ zeros (cap - p.length)

theorem frameBlock_eq (ord : Byte) (p : List Byte) (cap : Nat) :
    frameBlock ord p (cap + Config.hdr + Config.ckW) = sealRegion (frameCovered ord p cap) := by
  simp [frameBlock, frameCovered]

theorem frameCovered_length (ord : Byte) (p : List Byte) (cap : Nat) (h : p.length ≤ cap) :
    (frameCovered ord p cap).length = cap + 5 := by
  simp [frameCovered]
  omega

@[simp] theorem orderByte_frameCovered (ord : Byte) (p : List Byte) (cap : Nat) :
    orderByte (frameCovered ord p cap) = ord := rfl

/-- The length field of a frame holds the payload's length. -/
theorem declaredLength_frameCovered (ord : Byte) (p : List Byte) (cap : Nat) (h : p.length ≤ Config.maxLen) :
    declaredLength (frameCovered ord p cap) = p.length := by
  have : ((frameCovered ord p cap).drop Config.orderW).take Config.lenW = beBytes Config.lenW p.length := by
    simp [frameCovered]
  rw [declaredLength, this]
  apply beValue_beBytes_of_lt
  simp at h ⊢
  omega

/-- The payload slice of a frame is the payload. -/
theorem payloadSlice_frameCovered (ord : Byte) (p : List Byte) (cap : Nat) :
    payloadSlice (frameCovered ord p cap) p.length = p := by
  have : (frameCovered ord p cap).drop Config.hdr = p ++ zeros (cap - p.length) := by
    rw [frameCovered, List.append_assoc, List.drop_append_of_le_length (by simp), List.drop_eq_nil_of_le (by simp)]
    simp
  rw [payloadSlice, this, List.take_left]

/-- The payload slice is cut from the covered region alone. -/
theorem payloadSlice_seal (c : List Byte) (n : Nat) (h : Config.hdr + n ≤ c.length) :
    payloadSlice (sealRegion c) n = payloadSlice c n := by
  simp only [payloadSlice, sealRegion]
  rw [List.drop_append_of_le_length (by omega), List.take_append_of_le_length (by rw [List.length_drop]; omega)]

/-! ### Codewords (41_codec.md R160) -/

theorem halves (n : Nat) : halfA n + halfB n = n ∧ halfA n ≤ halfB n ∧ halfB n ≤ halfA n + 1 := by
  simp only [halfA, halfB]
  omega

/-- Block A's covered region. -/
def covA (p : List Byte) : List Byte := frameCovered Config.orderA (p.take (halfA p.length)) (halfB p.length)

/-- Block B's covered region. -/
def covB (p : List Byte) : List Byte := frameCovered Config.orderB (p.drop (halfA p.length)) (halfB p.length)

theorem covA_length (p : List Byte) : (covA p).length = halfB p.length + 5 := by
  have := halves p.length
  exact frameCovered_length _ _ _ (by simp; omega)

theorem covB_length (p : List Byte) : (covB p).length = halfB p.length + 5 :=
  frameCovered_length _ _ _ (by simp [halfA, halfB])

/-- The three blocks of `Encode(p)` as sealed regions. -/
theorem encodePayload_eq (p : List Byte) :
    encodePayload p =
      { blkA := sealRegion (covA p), blkB := sealRegion (covB p), blkX := sealRegion (xorBytes (covA p) (covB p)) } := by
  simp only [encodePayload, blockLength, frameBlock_eq, coveredRegion_seal]
  rfl

theorem blockLength_eq (n : Nat) : blockLength n = halfB n + 9 := by
  simp [blockLength]

end Sys2Proof.Machine
end

