-- ==== Sys2Proof/Laws/State.lean ====
section
/-! SUPPORT. One lemma per field per update of State, and what each shared update does to the views of the state. -/

namespace Sys2Proof.Machine

/-! ### Completion -/

section Complete
variable (s : State) (e : Effect)
@[simp] theorem State.complete_ie : (s.complete e).ie = s.ie := rfl
@[simp] theorem State.complete_done : (s.complete e).done = true := rfl
@[simp] theorem State.complete_err : (s.complete e).err = e.err := rfl
@[simp] theorem State.complete_lastop : (s.complete e).lastop = s.lastop := rfl
@[simp] theorem State.complete_args : (s.complete e).args = s.args := rfl
@[simp] theorem State.complete_res : (s.complete e).res = writeResults s.res e.results := rfl
@[simp] theorem State.complete_daddr : (s.complete e).daddr = s.daddr := rfl
@[simp] theorem State.complete_eng : (s.complete e).eng = .idle := rfl
@[simp] theorem State.complete_dmem : (s.complete e).dmem = s.dmem.writeAll e.writes := rfl
@[simp] theorem State.complete_bus : (s.complete e).bus = s.bus := rfl
@[simp] theorem State.complete_reads : (s.complete e).reads = s.reads := rfl
@[simp] theorem State.complete_schedule : (s.complete e).schedule = s.schedule := rfl
@[simp] theorem State.complete_draws : (s.complete e).draws = s.draws := rfl
end Complete

/-- Completion with an effect is `CompletedWith` of its code, whatever the effect writes. -/
theorem completedWith_complete (s : State) (e : Effect) : CompletedWith s (s.complete e) e.err :=
  ⟨rfl, rfl, rfl, ⟨rfl, rfl, rfl, rfl, rfl, rfl, rfl, rfl⟩⟩

/-! ### Issue -/

section Issue
variable (s : State) (w : Word)
@[simp] theorem State.issue_ie : (s.issue w).ie = s.ie := rfl
@[simp] theorem State.issue_done : (s.issue w).done = false := rfl
@[simp] theorem State.issue_err : (s.issue w).err = .ok := rfl
@[simp] theorem State.issue_lastop : (s.issue w).lastop = opField w := rfl
@[simp] theorem State.issue_args : (s.issue w).args = s.args := rfl
@[simp] theorem State.issue_res : (s.issue w).res = s.res := rfl
@[simp] theorem State.issue_daddr : (s.issue w).daddr = s.daddr := rfl
@[simp] theorem State.issue_eng : (s.issue w).eng = .busy w := rfl
@[simp] theorem State.issue_dmem : (s.issue w).dmem = s.dmem := rfl
@[simp] theorem State.issue_bus : (s.issue w).bus = s.bus := rfl
@[simp] theorem State.issue_reads : (s.issue w).reads = s.reads := rfl
@[simp] theorem State.issue_schedule : (s.issue w).schedule = s.schedule := rfl
@[simp] theorem State.issue_draws : (s.issue w).draws = s.draws := rfl
end Issue

/-! ### The turn taken off the schedule -/

section Popped
variable (s : State)
@[simp] theorem popped_ie : (popped s).ie = s.ie := rfl
@[simp] theorem popped_done : (popped s).done = s.done := rfl
@[simp] theorem popped_err : (popped s).err = s.err := rfl
@[simp] theorem popped_lastop : (popped s).lastop = s.lastop := rfl
@[simp] theorem popped_args : (popped s).args = s.args := rfl
@[simp] theorem popped_res : (popped s).res = s.res := rfl
@[simp] theorem popped_daddr : (popped s).daddr = s.daddr := rfl
@[simp] theorem popped_eng : (popped s).eng = s.eng := rfl
@[simp] theorem popped_dmem : (popped s).dmem = s.dmem := rfl
@[simp] theorem popped_bus : (popped s).bus = s.bus := rfl
@[simp] theorem popped_reads : (popped s).reads = s.reads := rfl
@[simp] theorem popped_schedule : (popped s).schedule = s.schedule.tail := rfl
@[simp] theorem popped_draws : (popped s).draws = s.draws := rfl
@[simp] theorem popped_busy : (popped s).busy = s.busy := rfl
@[simp] theorem popped_byteAt (x : Nat) : (popped s).byteAt x = s.byteAt x := rfl
end Popped

/-! ### The host's action taken off its program -/

section Consumed
variable (s : State) (rest : List HostOp)
@[simp] theorem consumed_ie : (consumed s rest).ie = s.ie := rfl
@[simp] theorem consumed_done : (consumed s rest).done = s.done := rfl
@[simp] theorem consumed_err : (consumed s rest).err = s.err := rfl
@[simp] theorem consumed_lastop : (consumed s rest).lastop = s.lastop := rfl
@[simp] theorem consumed_args : (consumed s rest).args = s.args := rfl
@[simp] theorem consumed_res : (consumed s rest).res = s.res := rfl
@[simp] theorem consumed_daddr : (consumed s rest).daddr = s.daddr := rfl
@[simp] theorem consumed_eng : (consumed s rest).eng = s.eng := rfl
@[simp] theorem consumed_dmem : (consumed s rest).dmem = s.dmem := rfl
@[simp] theorem consumed_bus : (consumed s rest).bus = rest := rfl
@[simp] theorem consumed_reads : (consumed s rest).reads = s.reads := rfl
@[simp] theorem consumed_schedule : (consumed s rest).schedule = s.schedule.tail := rfl
@[simp] theorem consumed_draws : (consumed s rest).draws = s.draws := rfl
@[simp] theorem consumed_busy : (consumed s rest).busy = s.busy := rfl
@[simp] theorem consumed_byteAt (x : Nat) : (consumed s rest).byteAt x = s.byteAt x := rfl
end Consumed

/-! ### Reset -/

section ResetRegisters
variable (s : State)
@[simp] theorem State.resetRegisters_ie : s.resetRegisters.ie = false := rfl
@[simp] theorem State.resetRegisters_done : s.resetRegisters.done = false := rfl
@[simp] theorem State.resetRegisters_err : s.resetRegisters.err = .ok := rfl
@[simp] theorem State.resetRegisters_lastop : s.resetRegisters.lastop = 0 := rfl
@[simp] theorem State.resetRegisters_args : s.resetRegisters.args = Vector.replicate 8 0 := rfl
@[simp] theorem State.resetRegisters_res : s.resetRegisters.res = Vector.replicate 4 0 := rfl
@[simp] theorem State.resetRegisters_daddr : s.resetRegisters.daddr = 0 := rfl
@[simp] theorem State.resetRegisters_eng : s.resetRegisters.eng = .idle := rfl
@[simp] theorem State.resetRegisters_dmem : s.resetRegisters.dmem = s.dmem := rfl
@[simp] theorem State.resetRegisters_bus : s.resetRegisters.bus = s.bus := rfl
@[simp] theorem State.resetRegisters_reads : s.resetRegisters.reads = s.reads := rfl
@[simp] theorem State.resetRegisters_schedule : s.resetRegisters.schedule = s.schedule := rfl
@[simp] theorem State.resetRegisters_draws : s.resetRegisters.draws = s.draws := rfl
end ResetRegisters

/-! ### DADDR's increment -/

section AdvanceDaddr
variable (s : State)
@[simp] theorem State.advanceDaddr_ie : s.advanceDaddr.ie = s.ie := rfl
@[simp] theorem State.advanceDaddr_done : s.advanceDaddr.done = s.done := rfl
@[simp] theorem State.advanceDaddr_err : s.advanceDaddr.err = s.err := rfl
@[simp] theorem State.advanceDaddr_lastop : s.advanceDaddr.lastop = s.lastop := rfl
@[simp] theorem State.advanceDaddr_args : s.advanceDaddr.args = s.args := rfl
@[simp] theorem State.advanceDaddr_res : s.advanceDaddr.res = s.res := rfl
@[simp] theorem State.advanceDaddr_daddr : s.advanceDaddr.daddr = s.daddr + 1 := rfl
@[simp] theorem State.advanceDaddr_eng : s.advanceDaddr.eng = s.eng := rfl
@[simp] theorem State.advanceDaddr_dmem : s.advanceDaddr.dmem = s.dmem := rfl
@[simp] theorem State.advanceDaddr_bus : s.advanceDaddr.bus = s.bus := rfl
@[simp] theorem State.advanceDaddr_reads : s.advanceDaddr.reads = s.reads := rfl
@[simp] theorem State.advanceDaddr_schedule : s.advanceDaddr.schedule = s.schedule := rfl
@[simp] theorem State.advanceDaddr_draws : s.advanceDaddr.draws = s.draws := rfl
end AdvanceDaddr

/-! ### BUSY -/

theorem State.busy_iff (s : State) : s.busy = true ↔ ∃ w, s.eng = .busy w := by
  unfold State.busy
  split <;> simp_all

theorem State.busy_eq_false_iff (s : State) : s.busy = false ↔ s.eng = .idle := by
  unfold State.busy
  split <;> simp_all

theorem State.busy_of_eng {s : State} {w : Word} (h : s.eng = .busy w) : s.busy = true :=
  s.busy_iff.2 ⟨w, h⟩

/-! ### STATUS as read (10_state.md R34) -/

theorem toNat_append_eq {n m : Nat} (x : BitVec n) (y : BitVec m) : (x ++ y).toNat = x.toNat * 2 ^ m + y.toNat := by
  rw [BitVec.toNat_append, Nat.shiftLeft_eq, Nat.mul_comm, Nat.two_pow_add_eq_or_of_lt y.isLt]

theorem State.statusWord_toNat (s : State) :
    s.statusWord.toNat =
      s.lastop.toNat * 256 + (errorCode s.err).toNat * 16 + s.done.toNat * 2 + s.busy.toNat := by
  simp only [State.statusWord, toNat_append_eq, BitVec.toNat_ofBool]
  simp
  omega

/-- Each field of STATUS, read back from the word. -/
theorem State.statusWord_fields (s : State) :
    s.statusWord.getLsbD 0 = s.busy ∧ s.statusWord.getLsbD 1 = s.done ∧ s.statusWord.extractLsb' 2 2 = 0 ∧
      s.statusWord.extractLsb' 4 4 = errorCode s.err ∧ s.statusWord.extractLsb' 8 8 = s.lastop ∧
      s.statusWord.extractLsb' 16 16 = 0 := by
  have h := s.statusWord_toNat
  have hl := s.lastop.isLt
  have he := (errorCode s.err).isLt
  have hd : s.done.toNat < 2 := Bool.toNat_lt _
  have hb : s.busy.toNat < 2 := Bool.toNat_lt _
  refine ⟨?_, ?_, ?_, ?_, ?_, ?_⟩
  · rw [← BitVec.testBit_toNat, h, Nat.testBit_eq_decide_div_mod_eq]
    cases s.busy <;> simp <;> omega
  · rw [← BitVec.testBit_toNat, h, Nat.testBit_eq_decide_div_mod_eq]
    cases hs : s.done <;> simp [hs] at * <;> omega
  all_goals
    apply BitVec.eq_of_toNat_eq
    rw [BitVec.extractLsb'_toNat, h, Nat.shiftRight_eq_div_pow]
    simp
    try omega

/-! ### Result registers -/

@[simp] theorem writeResults_nil (r : Vector Word 4) : writeResults r [] = r := rfl

/-- A result register no pair names keeps its value (10_state.md R22). -/
theorem writeResults_getElem_of_notMem (l : List (Fin 4 × Word)) (r : Vector Word 4) (i : Fin 4)
    (h : ∀ p ∈ l, p.1 ≠ i) : (writeResults r l)[i] = r[i] := by
  induction l generalizing r with
  | nil => rfl
  | cons p rest ih =>
    have hp : p.1 ≠ i := h p (by simp)
    rw [writeResults, ih _ fun q hq => h q (by simp [hq])]
    simpa [Fin.ext_iff] using Vector.getElem_set_ne p.1.isLt i.isLt (by simpa [Fin.ext_iff] using hp)

/-- Four pairs in order write all four result registers. -/
theorem writeResults_all (r : Vector Word 4) (a b c d : Word) :
    writeResults r [(0, a), (1, b), (2, c), (3, d)] = #v[a, b, c, d] := by
  apply Vector.ext
  intro i hi
  have : i = 0 ∨ i = 1 ∨ i = 2 ∨ i = 3 := by omega
  rcases this with rfl | rfl | rfl | rfl <;> simp [writeResults]

end Sys2Proof.Machine
end

