-- ==== Sys2Proof/Laws/Memory.lean ====
section
/-! SUPPORT. The laws of DMEM: what a read gives after a write, and that every operation keeps the canonical form. -/

namespace Sys2Proof.Machine

/-! ### One byte -/

theorem Memory.written_write (m : Memory) (a x : Nat) (b : Byte) :
    (m.write a b).written x = if x = a then some b else m.written x := by
  induction m with
  | nil => by_cases h : a = x <;> simp [Memory.write, Memory.written, h, eq_comm]
  | cons c rest ih =>
    obtain ⟨k, v⟩ := c
    simp only [Memory.write]
    split
    · by_cases h : x = a
      · simp [Memory.written, h]
      · simp [Memory.written, h, Ne.symm h]
    · split
      · subst_vars
        by_cases h : x = k
        · simp [Memory.written, h]
        · simp [Memory.written, h, Ne.symm h]
      · simp only [Memory.written, ih]
        by_cases h : k = x
        · subst h
          simp [Ne.symm ‹¬ a = k›]
        · simp [h]

/-- A read after a write: the byte written, or what stood there before. -/
theorem Memory.read_write (m : Memory) (a x : Nat) (b : Byte) :
    (m.write a b).read x = if x = a then b else m.read x := by
  simp only [Memory.read, Memory.written_write]
  split <;> rfl

/-! ### Byte sequences -/

@[simp] theorem Memory.readBytes_length (m : Memory) (a n : Nat) : (m.readBytes a n).length = n := by
  induction n generalizing a with
  | zero => rfl
  | succ n ih => simp [Memory.readBytes, ih]

/-- Byte `i` of `MemRead(a, n)` is `DMEM[a+i]` (00_scope.md R11). -/
theorem Memory.readBytes_getElem? (m : Memory) (a n i : Nat) (h : i < n) :
    (m.readBytes a n)[i]? = some (m.read (a + i)) := by
  induction n generalizing a i with
  | zero => omega
  | succ n ih =>
    cases i with
    | zero => simp [Memory.readBytes]
    | succ i =>
      have := ih (a + 1) i (by omega)
      simpa [Memory.readBytes, Nat.add_assoc, Nat.add_comm 1 i] using this

/-- A sequence is what DMEM holds exactly when each of its bytes is. -/
theorem Memory.readBytes_eq_iff (m : Memory) (a : Nat) (s : List Byte) :
    m.readBytes a s.length = s ↔ ∀ i, i < s.length → some (m.read (a + i)) = s[i]? := by
  constructor
  · intro h i hi
    rw [← Memory.readBytes_getElem? m a s.length i hi, h]
  · intro h
    apply List.ext_getElem?
    intro i
    by_cases hi : i < s.length
    · rw [Memory.readBytes_getElem? _ _ _ _ hi, h i hi]
    · simp [Nat.not_lt.mp hi]

/-- Two memories that agree on a region read the same there. -/
theorem Memory.readBytes_congr (m m' : Memory) (a n : Nat)
    (h : ∀ x, a ≤ x → x < a + n → m.read x = m'.read x) : m.readBytes a n = m'.readBytes a n := by
  apply List.ext_getElem?
  intro i
  by_cases hi : i < n
  · rw [Memory.readBytes_getElem? _ _ _ _ hi, Memory.readBytes_getElem? _ _ _ _ hi, h _ (by omega) (by omega)]
  · simp [Nat.not_lt.mp hi]

/-- `MemRead` of a region is that of its first part and of the rest. -/
theorem Memory.readBytes_add (m : Memory) (a n k : Nat) :
    m.readBytes a (n + k) = m.readBytes a n ++ m.readBytes (a + n) k := by
  induction n generalizing a with
  | zero => simp [Memory.readBytes]
  | succ n ih =>
    rw [Nat.add_right_comm, Memory.readBytes, Memory.readBytes, ih (a + 1)]
    simp [Nat.add_assoc, Nat.add_comm 1 n]

theorem Memory.readBytes_take (m : Memory) (a n k : Nat) (h : k ≤ n) :
    (m.readBytes a n).take k = m.readBytes a k := by
  obtain ⟨j, rfl⟩ := Nat.exists_eq_add_of_le h
  rw [Memory.readBytes_add]
  simp

theorem Memory.readBytes_drop (m : Memory) (a n k : Nat) (h : k ≤ n) :
    (m.readBytes a n).drop k = m.readBytes (a + k) (n - k) := by
  obtain ⟨j, rfl⟩ := Nat.exists_eq_add_of_le h
  rw [Memory.readBytes_add]
  simp

/-- A read after `MemWrite(a, s)` outside the region. -/
theorem Memory.read_writeBytes_outside (m : Memory) (a x : Nat) (s : List Byte)
    (h : ¬ (a ≤ x ∧ x < a + s.length)) : (m.writeBytes a s).read x = m.read x := by
  induction s generalizing m a with
  | nil => rfl
  | cons b rest ih =>
    simp only [List.length_cons] at h
    rw [Memory.writeBytes, ih _ _ (by omega), Memory.read_write, if_neg (by omega)]

/-- A read after `MemWrite(a, s)` inside the region. -/
theorem Memory.read_writeBytes_inside (m : Memory) (a i : Nat) (s : List Byte) (h : i < s.length) :
    some ((m.writeBytes a s).read (a + i)) = s[i]? := by
  induction s generalizing m a i with
  | nil => simp at h
  | cons b rest ih =>
    cases i with
    | zero =>
      rw [Memory.writeBytes, Memory.read_writeBytes_outside _ _ _ _ (by omega), Memory.read_write]
      simp
    | succ i =>
      have := ih (m.write a b) (a + 1) i (by simpa using h)
      simpa [Memory.writeBytes, Nat.add_assoc, Nat.add_comm 1 i] using this

/-- What `MemWrite(a, s)` stored is what `MemRead(a, len(s))` gives. -/
theorem Memory.readBytes_writeBytes_same (m : Memory) (a : Nat) (s : List Byte) :
    (m.writeBytes a s).readBytes a s.length = s :=
  (Memory.readBytes_eq_iff _ _ _).2 fun i hi => Memory.read_writeBytes_inside m a i s hi

/-- A region disjoint from the one written reads as before. -/
theorem Memory.readBytes_writeBytes_disjoint (m : Memory) (a b n : Nat) (s : List Byte)
    (h : b + n ≤ a ∨ a + s.length ≤ b ∨ n = 0 ∨ s.length = 0) :
    (m.writeBytes a s).readBytes b n = m.readBytes b n :=
  Memory.readBytes_congr _ _ _ _ fun x _ _ => Memory.read_writeBytes_outside m a x s (by omega)

/-! ### A command's writes -/

@[simp] theorem Memory.writeAll_nil (m : Memory) : m.writeAll [] = m := rfl

@[simp] theorem Memory.writeAll_cons (m : Memory) (d : Nat × List Byte) (rest : List (Nat × List Byte)) :
    m.writeAll (d :: rest) = (m.writeBytes d.1 d.2).writeAll rest := rfl

/-- A read outside every region a command writes. -/
theorem Memory.read_writeAll_outside (m : Memory) (l : List (Nat × List Byte)) (x : Nat)
    (h : ∀ d ∈ l, ¬ (d.1 ≤ x ∧ x < d.1 + d.2.length)) : (m.writeAll l).read x = m.read x := by
  induction l generalizing m with
  | nil => rfl
  | cons d rest ih =>
    rw [Memory.writeAll_cons, ih _ fun q hq => h q (by simp [hq]),
      Memory.read_writeBytes_outside _ _ _ _ (h d (by simp))]

/-! ### The canonical form -/

theorem Memory.mem_write (m : Memory) (a : Nat) (b : Byte) (c : Host.Cell) (h : c ∈ m.write a b) :
    c = (a, b) ∨ c ∈ m := by
  induction m with
  | nil => simpa [Memory.write] using h
  | cons d rest ih =>
    obtain ⟨k, v⟩ := d
    simp only [Memory.write] at h
    split at h
    · simpa using h
    · split at h
      · simp only [List.mem_cons] at h ⊢
        tauto
      · simp only [List.mem_cons] at h ⊢
        rcases h with h | h
        · exact .inr (.inl h)
        · rcases ih h with h | h <;> simp [h]

/-- A write inside DMEM keeps the canonical form. -/
theorem Memory.wf_write (m : Memory) (a : Nat) (b : Byte) (hm : m.wf) (ha : a < Config.dmemSize) :
    (m.write a b).wf := by
  refine ⟨?_, fun c hc => ?_⟩
  · obtain ⟨hs, -⟩ := hm
    induction m with
    | nil => simp [Memory.write]
    | cons d rest ih =>
      obtain ⟨k, v⟩ := d
      rw [List.pairwise_cons] at hs
      simp only [Memory.write]
      split
      · refine List.pairwise_cons.2 ⟨fun c hc => ?_, List.pairwise_cons.2 hs⟩
        rcases List.mem_cons.1 hc with rfl | hc
        · assumption
        · exact lt_trans ‹a < k› (hs.1 c hc)
      · split
        · subst_vars
          exact List.pairwise_cons.2 ⟨hs.1, hs.2⟩
        · refine List.pairwise_cons.2 ⟨fun c hc => ?_, ih hs.2⟩
          rcases Memory.mem_write _ _ _ _ hc with rfl | hc
          · show k < a
            omega
          · exact hs.1 c hc
  · rcases Memory.mem_write _ _ _ _ hc with rfl | hc
    · exact ha
    · exact hm.2 c hc

theorem Memory.wf_writeBytes (m : Memory) (a : Nat) (s : List Byte) (hm : m.wf)
    (ha : a + s.length ≤ Config.dmemSize) : (m.writeBytes a s).wf := by
  induction s generalizing m a with
  | nil => exact hm
  | cons b rest ih =>
    simp only [List.length_cons] at ha
    exact ih _ _ (m.wf_write a b hm (by omega)) (by omega)

/-- Writes inside DMEM keep the canonical form. -/
theorem Memory.wf_writeAll (m : Memory) (l : List (Nat × List Byte)) (hm : m.wf)
    (hl : ∀ d ∈ l, d.1 + d.2.length ≤ Config.dmemSize) : (m.writeAll l).wf := by
  induction l generalizing m with
  | nil => exact hm
  | cons d rest ih =>
    rw [Memory.writeAll_cons]
    exact ih _ (m.wf_writeBytes _ _ hm (hl d (by simp))) fun q hq => hl q (by simp [hq])

/-- Two memories in canonical form in which the same bytes have been written are the same list. -/
theorem Memory.eq_of_written_eq (m m' : Memory) (hm : m.wf) (hm' : m'.wf)
    (h : ∀ a, m.written a = m'.written a) : m = m' := by
  have hnone : ∀ (l : Memory) (a : Nat), (∀ c ∈ l, a < c.1) → l.written a = none := by
    intro l a hl
    induction l with
    | nil => rfl
    | cons c rest ih =>
      have hc := hl c (by simp)
      rw [Memory.written, if_neg (by omega)]
      exact ih fun d hd => hl d (by simp [hd])
  obtain ⟨hs, -⟩ := hm
  obtain ⟨hs', -⟩ := hm'
  induction m generalizing m' with
  | nil =>
    cases m' with
    | nil => rfl
    | cons c rest => simpa [Memory.written] using h c.1
  | cons c rest ih =>
    cases m' with
    | nil => simpa [Memory.written] using h c.1
    | cons c' rest' =>
      obtain ⟨k, v⟩ := c
      obtain ⟨k', v'⟩ := c'
      rw [List.pairwise_cons] at hs hs'
      have hk : k = k' := by
        rcases lt_trichotomy k k' with hlt | heq | hlt
        · have hk := h k
          rw [hnone ((k', v') :: rest') k fun d hd => by
            rcases List.mem_cons.1 hd with rfl | hd
            · exact hlt
            · exact lt_trans hlt (hs'.1 d hd)] at hk
          simp [Memory.written] at hk
        · exact heq
        · have hk := h k'
          rw [hnone ((k, v) :: rest) k' fun d hd => by
            rcases List.mem_cons.1 hd with rfl | hd
            · exact hlt
            · exact lt_trans hlt (hs.1 d hd)] at hk
          simp [Memory.written] at hk
      subst hk
      have hv : v = v' := by simpa [Memory.written] using h k
      subst hv
      have hrest : ∀ a, Memory.written rest a = Memory.written rest' a := by
        intro a
        by_cases ha : k = a
        · subst ha
          rw [hnone rest k hs.1, hnone rest' k hs'.1]
        · simpa [Memory.written, ha] using h a
      rw [ih rest' hrest hs.2 hs'.2]

end Sys2Proof.Machine
end

