-- ==== Sys2Proof/Laws/Effect.lean ====
section
/-! SUPPORT. What a command can do, said once: it completes with its effect; an effect with an error writes nothing; an
effect writes inside DMEM only; no effect is SIZE_OVERFLOW. -/

namespace Sys2Proof.Machine

/-- Every command completes with its effect: everything `exec` can do. -/
theorem exec_eq_complete (i : Instr) (s : State) : exec i s = .next (s.complete (commandEffect i s)) := by
  cases i <;> rfl

theorem exec_next_iff (i : Instr) (s t : State) : exec i s = .next t ↔ t = s.complete (commandEffect i s) := by
  rw [exec_eq_complete]
  constructor
  · intro h
    injection h with h
    exact h.symm
  · rintro rfl
    rfl

/-- An effect that writes nothing on error, writes inside DMEM and is not SIZE_OVERFLOW. -/
structure Effect.Sound (e : Effect) : Prop where
  noWrites : e.err ≠ .ok → e.writes = []
  inMemory : ∀ d ∈ e.writes, d.1 + d.2.length ≤ Config.dmemSize
  reachable : e.err ≠ .sizeOverflow

theorem sound_raise {e : ErrCode} (h : e ≠ .sizeOverflow) : (raiseError e).Sound :=
  ⟨fun _ => rfl, by simp [raiseError], h⟩

theorem sound_ok {w : List (Nat × List Byte)} {r : List (Fin 4 × Word)}
    (h : ∀ d ∈ w, d.1 + d.2.length ≤ Config.dmemSize) : Effect.Sound { writes := w, results := r } :=
  ⟨fun hne => absurd rfl hne, h, by simp⟩

theorem sound_decodeFailure {e : ErrCode} (c : Cause) (map : Word) (h : e ≠ .sizeOverflow) :
    (decodeFailure e c map).Sound := ⟨fun _ => rfl, by simp [decodeFailure], h⟩

theorem arg_lt (s : State) (i : Fin 8) : s.arg i < 2 ^ 32 := (s.args[i]).isLt

theorem frameBlock_length (ord : Byte) (p : List Byte) (L : Nat) (h : Config.hdr + p.length + Config.ckW ≤ L) :
    (frameBlock ord p L).length = L := by
  simp at h
  simp [frameBlock]
  omega

theorem payloadSlice_length (blk : List Byte) (n : Nat) (h : Config.hdr + n ≤ blk.length) :
    (payloadSlice blk n).length = n := by
  simp at h
  simp [payloadSlice]
  omega

theorem encodePayload_lengths (p : List Byte) :
    (encodePayload p).blkA.length = blockLength p.length ∧ (encodePayload p).blkB.length = blockLength p.length ∧
      (encodePayload p).blkX.length = blockLength p.length := by
  simp [encodePayload_eq, covA_length, covB_length, blockLength_eq]

/-- The payload a Decode of readable slots returns is no longer than the sum of the two lengths it reports. -/
theorem decodeBlocks_payload_length {L : Nat} {blk : Triple (List Byte)} {d : Decoded}
    (h : decodeBlocks L blk = .ok d) : d.payload.length ≤ d.lenA + d.lenB := by
  unfold decodeBlocks at h
  split at h
  · simp at h
  · unfold finishDecode at h
    split at h
    · simp at h
    · injection h with h
      subst h
      simp [payloadSlice]
      omega

theorem commandEffect_sound (i : Instr) (s : State) : (commandEffect i s).Sound := by
  cases i
  case nop => exact sound_ok (by simp)
  case wruint =>
    simp only [commandEffect, wruintEffect]
    split
    · exact sound_raise (by decide)
    · split
      · have := arg_lt s 1
        simp [wruintOperands] at *
        omega
      · exact sound_ok (by simp_all [inRange])
  case rduint =>
    simp only [commandEffect, rduintEffect]
    split
    · exact sound_raise (by decide)
    · exact sound_ok (by simp)
  case cksum =>
    simp only [commandEffect, cksumEffect]
    split
    · exact sound_raise (by decide)
    · exact sound_ok (by simp)
  case frame =>
    simp only [commandEffect, frameEffect]
    split
    · exact sound_raise (by decide)
    split
    · exact sound_raise (by decide)
    split
    · exact sound_raise (by decide)
    split
    · have := arg_lt s 2
      simp [frameOperands] at *
      omega
    split
    · exact sound_raise (by decide)
    split
    · exact sound_raise (by decide)
    · refine sound_ok fun d hd => ?_
      rw [List.mem_singleton.1 hd, frameBlock_length _ _ _ (by rw [Memory.readBytes_length]; omega)]
      omega
  case sealBlock =>
    simp only [commandEffect, sealEffect]
    split
    · exact sound_raise (by decide)
    split
    · exact sound_raise (by decide)
    · refine sound_ok fun d hd => ?_
      rw [List.mem_singleton.1 hd, beBytes_length]
      simp at *
      omega
  case validate =>
    simp only [commandEffect, validateEffect]
    split
    · exact sound_raise (by decide)
    · exact sound_ok (by simp)
  case xor =>
    simp only [commandEffect, xorEffect]
    split
    · exact sound_raise (by decide)
    split
    · exact sound_raise (by decide)
    split
    · exact sound_raise (by decide)
    split
    · exact sound_raise (by decide)
    · refine sound_ok fun d hd => ?_
      rw [List.mem_singleton.1 hd, xorBytes_length, Memory.readBytes_length, Memory.readBytes_length, Nat.min_self]
      omega
  case encode =>
    simp only [commandEffect, encodeEffect]
    split
    · exact sound_raise (by decide)
    split
    · have := arg_lt s 1
      simp [encodeOperands, halfB, halfA] at *
      omega
    split
    · exact sound_raise (by decide)
    split
    · exact sound_raise (by decide)
    split
    · exact sound_raise (by decide)
    split
    · exact sound_raise (by decide)
    · refine sound_ok fun d hd => ?_
      have hl := encodePayload_lengths (s.dmem.readBytes (encodeOperands s).src (encodeOperands s).n)
      rw [Memory.readBytes_length] at hl
      simp only [List.mem_cons, List.not_mem_nil, or_false] at hd
      rcases hd with rfl | rfl | rfl <;> simp only [hl] <;> omega
  case decode =>
    simp only [commandEffect, decodeEffect]
    split
    · exact sound_decodeFailure _ _ (by decide)
    split
    · exact sound_decodeFailure _ _ (by decide)
    split
    · exact sound_decodeFailure _ _ (by decide)
    · rename_i d hd
      simp only [decodeDeliver]
      split
      · exact sound_decodeFailure _ _ (by decide)
      split
      · exact sound_decodeFailure _ _ (by decide)
      · refine sound_ok fun q hq => ?_
        have := decodeBlocks_payload_length hd
        rw [List.mem_singleton.1 hq]
        simp only
        omega

/-- A command other than DECODE completes with OK or does nothing but report its error (00_scope.md R12). -/
theorem commandEffect_ok_or_raise (i : Instr) (s : State) (hi : i ≠ .decode) :
    (commandEffect i s).err = .ok ∨ ∃ e, commandEffect i s = raiseError e := by
  cases i
  case decode => exact absurd rfl hi
  all_goals
    simp only [commandEffect, nopEffect, wruintEffect, rduintEffect, cksumEffect, frameEffect, sealEffect,
      validateEffect, xorEffect, encodeEffect]
    repeat' split
    all_goals first | exact .inr ⟨_, rfl⟩ | exact .inl rfl

/-- A failing command other than DECODE names no result register. -/
theorem commandEffect_noResults (i : Instr) (s : State) (hi : i ≠ .decode) (h : (commandEffect i s).err ≠ .ok) :
    (commandEffect i s).results = [] := by
  rcases commandEffect_ok_or_raise i s hi with h' | ⟨e, h'⟩
  · exact absurd h' h
  · rw [h']
    rfl

/-- What a completion leaves of DMEM outside the regions its command writes. -/
theorem byteAt_complete_outside (s : State) (e : Effect) (x : Nat)
    (h : ∀ d ∈ e.writes, ¬ (d.1 ≤ x ∧ x < d.1 + d.2.length)) : (s.complete e).byteAt x = s.byteAt x :=
  Memory.read_writeAll_outside _ _ _ h

/-- A completion whose effect writes nothing leaves DMEM alone. -/
theorem memSame_complete (s : State) (e : Effect) (h : e.writes = []) : MemSame s (s.complete e) := by
  intro x
  apply byteAt_complete_outside
  simp [h]

end Sys2Proof.Machine
end

