-- ==== Sys2Proof/Laws/Commands.lean ====
section
/-! SUPPORT. Each command's effect as one equation over the ARG registers and the numbers of 00_scope.md R6, for proofs to
rewrite with instead of unfolding the operand records. -/

namespace Sys2Proof.Machine

theorem wruintEffect_eq (s : State) :
    wruintEffect s =
      if ¬ s.args[0].toNat + 4 ≤ 65536 then raiseError .range
      else if s.args[1].toNat > 4294967295 then raiseError .sizeOverflow
      else { writes := [(s.args[0].toNat, beBytes 4 s.args[1].toNat)] } := rfl

theorem rduintEffect_eq (s : State) :
    rduintEffect s =
      if ¬ s.args[0].toNat + 4 ≤ 65536 then raiseError .range
      else { results := [(0, BitVec.ofNat 32 (beValue (s.dmem.readBytes s.args[0].toNat 4)))] } := rfl

theorem cksumEffect_eq (s : State) :
    cksumEffect s =
      if ¬ s.args[0].toNat + s.args[1].toNat ≤ 65536 then raiseError .range
      else { results := [(0, BitVec.ofNat 32 (adler32 (s.dmem.readBytes s.args[0].toNat s.args[1].toNat)))] } := rfl

theorem frameEffect_eq (s : State) :
    frameEffect s =
      if s.args[4].toNat > 255 then raiseError .range
      else if ¬ s.args[1].toNat + s.args[2].toNat ≤ 65536 then raiseError .range
      else if ¬ s.args[0].toNat + s.args[3].toNat ≤ 65536 then raiseError .range
      else if s.args[2].toNat > 4294967295 then raiseError .sizeOverflow
      else if s.args[3].toNat < 5 + s.args[2].toNat + 4 then raiseError .frameSize
      else if overlap s.args[0].toNat s.args[3].toNat s.args[1].toNat s.args[2].toNat then raiseError .overlap
      else
        let blk := frameBlock (BitVec.ofNat 8 s.args[4].toNat) (s.dmem.readBytes s.args[1].toNat s.args[2].toNat)
          s.args[3].toNat
        { writes := [(s.args[0].toNat, blk)], results := [(0, BitVec.ofNat 32 (beValue (checksumField blk)))] } := rfl

theorem sealEffect_eq (s : State) :
    sealEffect s =
      if ¬ s.args[0].toNat + s.args[1].toNat ≤ 65536 then raiseError .range
      else if s.args[1].toNat < 4 then raiseError .frameSize
      else
        let k := adler32 (s.dmem.readBytes s.args[0].toNat (s.args[1].toNat - 4))
        { writes := [(s.args[0].toNat + s.args[1].toNat - 4, beBytes 4 k)], results := [(0, BitVec.ofNat 32 k)] } := rfl

theorem validateEffect_eq (s : State) :
    validateEffect s =
      if ¬ s.args[0].toNat + s.args[1].toNat ≤ 65536 then raiseError .range
      else
        let v := validateBlock (s.dmem.readBytes s.args[0].toNat s.args[1].toNat)
        { results := [(0, v.order.setWidth 32), (1, BitVec.ofNat 32 v.declared), (2, if v.good then 1 else 0),
            (3, BitVec.ofNat 32 v.comp)] } := rfl

theorem xorEffect_eq (s : State) :
    xorEffect s =
      if ¬ s.args[1].toNat + s.args[3].toNat ≤ 65536 then raiseError .range
      else if ¬ s.args[2].toNat + s.args[3].toNat ≤ 65536 then raiseError .range
      else if ¬ s.args[0].toNat + s.args[3].toNat ≤ 65536 then raiseError .range
      else if (s.args[0].toNat ≠ s.args[1].toNat ∧
            overlap s.args[0].toNat s.args[3].toNat s.args[1].toNat s.args[3].toNat) ∨
          (s.args[0].toNat ≠ s.args[2].toNat ∧
            overlap s.args[0].toNat s.args[3].toNat s.args[2].toNat s.args[3].toNat) then raiseError .overlap
      else
        { writes := [(s.args[0].toNat,
            xorBytes (s.dmem.readBytes s.args[1].toNat s.args[3].toNat)
              (s.dmem.readBytes s.args[2].toNat s.args[3].toNat))] } := rfl

theorem encodeEffect_eq (s : State) :
    encodeEffect s =
      if ¬ s.args[0].toNat + s.args[1].toNat ≤ 65536 then raiseError .range
      else if halfB s.args[1].toNat > 4294967295 then raiseError .sizeOverflow
      else if ¬ s.args[2].toNat + blockLength s.args[1].toNat ≤ 65536 then raiseError .range
      else if ¬ s.args[3].toNat + blockLength s.args[1].toNat ≤ 65536 then raiseError .range
      else if ¬ s.args[4].toNat + blockLength s.args[1].toNat ≤ 65536 then raiseError .range
      else if anyOverlap [(s.args[0].toNat, s.args[1].toNat), (s.args[2].toNat, blockLength s.args[1].toNat),
          (s.args[3].toNat, blockLength s.args[1].toNat), (s.args[4].toNat, blockLength s.args[1].toNat)] then
        raiseError .overlap
      else
        let c := encodePayload (s.dmem.readBytes s.args[0].toNat s.args[1].toNat)
        { writes := [(s.args[2].toNat, c.blkA), (s.args[3].toNat, c.blkB), (s.args[4].toNat, c.blkX)]
          results := [(0, BitVec.ofNat 32 (blockLength s.args[1].toNat)), (1, BitVec.ofNat 32 (halfA s.args[1].toNat)),
            (2, BitVec.ofNat 32 (halfB s.args[1].toNat))] } := rfl

/-- Overlap among four regions, pair by pair: "for each pair (r, s) of distinct regions" (41_codec.md R165). -/
theorem anyOverlap_four (a b c d : Nat × Nat) :
    anyOverlap [a, b, c, d] = true ↔
      overlap a.1 a.2 b.1 b.2 ∨ overlap a.1 a.2 c.1 c.2 ∨ overlap a.1 a.2 d.1 d.2 ∨ overlap b.1 b.2 c.1 c.2 ∨
        overlap b.1 b.2 d.1 d.2 ∨ overlap c.1 c.2 d.1 d.2 := by
  simp only [anyOverlap, List.any_cons, List.any_nil, Bool.or_false, Bool.or_eq_true, decide_eq_true_eq, or_assoc]

/-- DECODE's first two checks, then the decoding of the three slots. -/
theorem decodeEffect_eq (s : State) :
    decodeEffect s =
      if ¬ (slotLen s 0 = slotLen s 1 ∧ slotLen s 1 = slotLen s 2) then
        decodeFailure .sizeMismatch .lengthsDiffer emptySlotMap
      else if ¬ (slotAddr s 0 + slotLen s 0 ≤ 65536 ∧ slotAddr s 1 + slotLen s 0 ≤ 65536 ∧
          slotAddr s 2 + slotLen s 0 ≤ 65536) then
        decodeFailure .range .outOfRange emptySlotMap
      else
        match decodeBlocks (slotLen s 0) (decodeSlots s) with
        | .error c => decodeFailure .unrecoverable c (slotMap ((decodeSlots s).map validateBlock))
        | .ok d => decodeDeliver (decodeOperands s) (slotMap ((decodeSlots s).map validateBlock)) d := rfl

/-- With equal lengths, the slots DECODE decodes are the three slots' bytes. -/
theorem decodeSlots_get (s : State) (h : ∀ i, slotLen s i = slotLen s 0) (i : Fin 3) :
    (decodeSlots s).get i = slotBytes s i := by
  match i with
  | 0 => rfl
  | 1 => rw [slotBytes, h 1]; rfl
  | 2 => rw [slotBytes, h 2]; rfl

/-- A failing DECODE writes all four result registers (41_codec.md R180). -/
theorem complete_decodeFailure_res (s : State) (e : ErrCode) (c : Cause) (map : Word) :
    (s.complete (decodeFailure e c map)).res = #v[0, 0, map, BitVec.ofNat 32 (causeCode c)] :=
  writeResults_all _ _ _ _ _

end Sys2Proof.Machine
end

