-- ==== Sys2Proof/Laws/PerInstr.lean ====
section
/-! SUPPORT. Statements for all commands, one lemma per constructor of Instr. -/

namespace Sys2Proof.Laws

/-- The command word of a command is legal and decodes to that command (30_encoding.md R71, R74). -/
def RoundTrip.Statement (i : Instr) : Prop := LegalWord (encode i) ∧ decode (encode i) = .ok i

theorem RoundTrip.nop : RoundTrip.Statement .nop := by unfold Statement; decide
theorem RoundTrip.wruint : RoundTrip.Statement .wruint := by unfold Statement; decide
theorem RoundTrip.rduint : RoundTrip.Statement .rduint := by unfold Statement; decide
theorem RoundTrip.cksum : RoundTrip.Statement .cksum := by unfold Statement; decide
theorem RoundTrip.frame : RoundTrip.Statement .frame := by unfold Statement; decide
theorem RoundTrip.sealBlock : RoundTrip.Statement .sealBlock := by unfold Statement; decide
theorem RoundTrip.validate : RoundTrip.Statement .validate := by unfold Statement; decide
theorem RoundTrip.xor : RoundTrip.Statement .xor := by unfold Statement; decide
theorem RoundTrip.encode : RoundTrip.Statement .encode := by unfold Statement; decide
theorem RoundTrip.decode : RoundTrip.Statement .decode := by unfold Statement; decide

end Sys2Proof.Laws
end

