-- ==== Sys2Proof/Laws/Step.lean ====
section
/-! SUPPORT. What a step can do, said once: the agent that moves takes its turn on the state with that turn taken off the
schedule; and the register map read both ways. -/

namespace Sys2Proof.Machine

/-! ### The register map (10_state.md R30) -/

theorem mem_allRegs (r : Reg) : r ∈ allRegs := by
  cases r <;> simp [allRegs]

theorem regOffset_injective {r q : Reg} (h : regOffset r = regOffset q) : r = q := by
  cases r <;> cases q <;> simp only [regOffset] at h <;> first | rfl | omega | (congr 1; apply Fin.ext; omega)

/-- Each register has exactly one offset (10_state.md R23). -/
theorem regAt_eq_some_iff (offset : Word) (r : Reg) : regAt offset = some r ↔ regOffset r = offset.toNat % 4096 := by
  constructor
  · intro h
    simpa using List.find?_some h
  · intro h
    obtain ⟨q, hq⟩ : ∃ q, regAt offset = some q := by
      rw [regAt, ← Option.isSome_iff_exists, List.find?_isSome]
      exact ⟨r, mem_allRegs r, by simpa using h⟩
    have : regOffset q = offset.toNat % 4096 := by simpa using List.find?_some hq
    rw [hq, regOffset_injective (this.trans h.symm)]

theorem regAt_eq_none_iff (offset : Word) : regAt offset = none ↔ ∀ r, regOffset r ≠ offset.toNat % 4096 := by
  rw [Option.eq_none_iff_forall_ne_some]
  exact forall_congr' fun r => not_congr (regAt_eq_some_iff offset r)

/-- No register stands at a misaligned or reserved offset (20_memory.md R59). -/
theorem regAt_reserved {offset : Word} (h : offset.toNat % 4096 % 4 ≠ 0 ∨
    (0x014 ≤ offset.toNat % 4096 ∧ offset.toNat % 4096 < 0x020) ∨ 0x058 ≤ offset.toNat % 4096) :
    regAt offset = none := by
  rw [regAt_eq_none_iff]
  intro r
  cases r <;> simp only [regOffset] <;> omega

/-! ### Bus holding (70_reset_and_hazards.md R241) -/

theorem holds_eq_false_of_idle {s : State} (h : s.eng = .idle) (offset : Word) : s.holds offset = false := by
  simp [State.holds, s.busy_eq_false_iff.2 h]

theorem holds_of_busy {s : State} (h : s.busy = true) {offset : Word} {r : Reg} (hr : regAt offset = some r) :
    s.holds offset = heldReg r := by
  simp [State.holds, h, hr]

/-- A held register is accessed only while the engine is idle. -/
theorem idle_of_performed {s : State} {offset : Word} {r : Reg} (hh : s.holds offset = false)
    (hr : regAt offset = some r) (hheld : heldReg r = true) : s.eng = .idle := by
  rw [← s.busy_eq_false_iff, ← Bool.not_eq_true]
  intro hb
  rw [holds_of_busy hb hr, hheld] at hh
  cases hh

@[simp] theorem holds_popped (s : State) (offset : Word) : (popped s).holds offset = s.holds offset := rfl

/-! ### Turns -/

theorem illegalLatched_of_idle {s : State} (h : s.eng = .idle) : illegalLatched s = false := by
  simp [illegalLatched, latchedWord, h]

theorem illegalLatched_of_busy {s : State} {w : Word} (h : s.eng = .busy w) :
    illegalLatched s = !decide (LegalWord w) := by
  simp [illegalLatched, latchedWord, h]

@[simp] theorem atOnce_engine (s : State) : atOnce .engine s = .engine := rfl
@[simp] theorem atOnce_rst (s : State) : atOnce .rst s = .rst := rfl

/-- Every turn stands unless an illegal word is latched. -/
theorem atOnce_eq_self {s : State} (h : illegalLatched s = false) (t : Turn) : atOnce t s = t := by
  cases t <;> simp [atOnce, h]

/-- `rst` alone comes before the completion of an illegal word (30_encoding.md R71). -/
theorem atOnce_of_illegal {s : State} (h : illegalLatched s = true) {t : Turn} (ht : t ≠ .rst) : atOnce t s = .engine := by
  cases t <;> simp_all [atOnce]

/-- The turn of a default is the default: it is the engine's whenever a word is latched. -/
@[simp] theorem atOnce_defaultTurn (s : State) : atOnce (defaultTurn s) s = defaultTurn s := by
  cases h : s.eng with
  | idle => exact atOnce_eq_self (illegalLatched_of_idle h) _
  | busy w => simp [defaultTurn, s.busy_of_eng h]

theorem nextTurn_of_nil {s : State} (h : s.schedule = []) : nextTurn s = defaultTurn s := by
  simp [nextTurn, h]

/-- Unless an illegal word is latched, the schedule's head moves. -/
theorem nextTurn_of_cons {s : State} {t : Turn} {rest : List Turn} (h : s.schedule = t :: rest)
    (hi : illegalLatched s = false) : nextTurn s = t := by
  simp [nextTurn, h, atOnce_eq_self hi]

/-- A latched illegal word is completed next, unless `rst` comes (30_encoding.md R71). -/
theorem nextTurn_of_illegal {s : State} {w : Word} (he : s.eng = .busy w) (hl : ¬ LegalWord w)
    (hr : s.schedule.head? ≠ some .rst) : nextTurn s = .engine := by
  apply atOnce_of_illegal (by simp [illegalLatched_of_busy he, hl])
  cases hs : s.schedule with
  | nil => simp [defaultTurn, s.busy_of_eng he]
  | cons t rest => simpa [hs] using hr

/-- A step is the turn of the agent that moves next. -/
theorem step_eq_takeTurn (s : State) : step s = takeTurn (nextTurn s) (popped s) := by
  rw [step, scheduledTurn]
  split <;> rename_i h
  · rw [nextTurn_of_nil h, show popped s = s by cases s; simp_all [popped]]
  · simp [nextTurn, popped, h]

theorem hostTurn_nil {s : State} (h : s.bus = []) : hostTurn s = .next s := by
  rw [hostTurn, h]

theorem hostTurn_cons {s : State} {op : HostOp} {rest : List HostOp} (h : s.bus = op :: rest) :
    hostTurn s = hostAction op rest s := by
  rw [hostTurn, h]

/-- The host's turn, when the host moves. -/
theorem step_host {s : State} {op : HostOp} {rest : List HostOp} (hn : nextTurn s = .host) (hb : s.bus = op :: rest) :
    step s = hostAction op rest (popped s) := by
  rw [step_eq_takeTurn, hn]
  exact hostTurn_cons (s := popped s) hb

theorem step_write {s : State} {offset v : Word} {rest : List HostOp} (hn : nextTurn s = .host)
    (hb : s.bus = .wr .word offset v :: rest) (hh : s.holds offset = false) :
    step s = .next (writeReg offset v (consumed s rest)) := by
  rw [step_host hn hb]
  simp [hostAction, hh, consumed]

theorem step_read {s : State} {offset : Word} {rest : List HostOp} (hn : nextTurn s = .host)
    (hb : s.bus = .rd .word offset :: rest) (hh : s.holds offset = false) :
    step s = .next { (readReg offset (consumed s rest)).2 with
      reads := s.reads ++ [(readReg offset (consumed s rest)).1] } := by
  rw [step_host hn hb]
  simp [hostAction, hh, consumed]

/-- A held access changes nothing (70_reset_and_hazards.md R241). -/
theorem step_held {s : State} {offset : Word} {op : HostOp} {rest : List HostOp} (hn : nextTurn s = .host)
    (hb : s.bus = op :: rest) (hop : op = .rd .word offset ∨ ∃ v, op = .wr .word offset v)
    (hh : s.holds offset = true) : step s = .next (popped s) := by
  rw [step_host hn hb]
  rcases hop with rfl | ⟨v, rfl⟩ <;> simp [hostAction, hh]

/-- The engine's turn on a latched word: it completes with the word's effect, an illegal word's being ILLEGAL_CMD alone. -/
theorem completeWord_eq (w : Word) (s : State) : completeWord w s = .next (s.complete (wordEffect w s)) := by
  unfold completeWord wordEffect
  cases decode w with
  | ok i => exact exec_eq_complete i s
  | error e => rfl

theorem step_engine {s : State} {w : Word} (hn : nextTurn s = .engine) (he : s.eng = .busy w) :
    step s = completeWord w (popped s) := by
  have hl : latchedWord (popped s) = some w := by simp [latchedWord, he]
  rw [step_eq_takeTurn, hn]
  show engineTurn (popped s) = _
  rw [engineTurn, hl]

theorem step_engine_idle {s : State} (hn : nextTurn s = .engine) (he : s.eng = .idle) : step s = .next (popped s) := by
  have hl : latchedWord (popped s) = none := by simp [latchedWord, he]
  rw [step_eq_takeTurn, hn]
  show engineTurn (popped s) = _
  rw [engineTurn, hl]

theorem step_rst {s : State} (hn : nextTurn s = .rst) : step s = .next (popped s).hardwareReset := by
  rw [step_eq_takeTurn, hn]
  rfl

/-- Everything a step that answers a next state can do. -/
theorem step_cases {s t : State} (h : step s = .next t) :
    (nextTurn s = .rst ∧ t = (popped s).hardwareReset) ∨
    (nextTurn s = .engine ∧ ((s.eng = .idle ∧ t = popped s) ∨
      ∃ w, s.eng = .busy w ∧ t = (popped s).complete (wordEffect w (popped s)))) ∨
    (nextTurn s = .host ∧ (t = popped s ∨
      ∃ op rest, s.bus = op :: rest ∧
        ((op = .wait ∧ s.busy = false ∧ t = consumed s rest) ∨
          (∃ offset, op = .rd .word offset ∧ s.holds offset = false ∧
            t = { (readReg offset (consumed s rest)).2 with
              reads := s.reads ++ [(readReg offset (consumed s rest)).1] }) ∨
          ∃ offset v, op = .wr .word offset v ∧ s.holds offset = false ∧
            t = writeReg offset v (consumed s rest)))) := by
  cases hn : nextTurn s with
  | rst =>
    rw [step_rst hn] at h
    injection h with h
    exact .inl ⟨rfl, h.symm⟩
  | engine =>
    refine .inr (.inl ⟨rfl, ?_⟩)
    cases he : s.eng with
    | idle =>
      rw [step_engine_idle hn he] at h
      injection h with h
      exact .inl ⟨rfl, h.symm⟩
    | busy w =>
      rw [step_engine hn he, completeWord_eq] at h
      injection h with h
      exact .inr ⟨w, rfl, h.symm⟩
  | host =>
    refine .inr (.inr ⟨rfl, ?_⟩)
    cases hb : s.bus with
    | nil =>
      rw [step_eq_takeTurn, hn] at h
      rw [show takeTurn .host (popped s) = hostTurn (popped s) from rfl, hostTurn_nil (s := popped s) hb] at h
      injection h with h
      exact .inl h.symm
    | cons op rest =>
      cases op with
      | wait =>
        rw [step_host hn hb] at h
        simp only [hostAction] at h
        split at h
        · injection h with h
          exact .inl h.symm
        · injection h with h
          exact .inr ⟨_, _, rfl, .inl ⟨rfl, Bool.not_eq_true _ ▸ ‹¬ _›, h.symm⟩⟩
      | rd width offset =>
        cases width with
        | byte => rw [step_host hn hb] at h; cases h
        | half => rw [step_host hn hb] at h; cases h
        | word =>
          by_cases hh : s.holds offset = true
          · rw [step_held hn hb (.inl rfl) hh] at h
            injection h with h
            exact .inl h.symm
          · rw [Bool.not_eq_true] at hh
            rw [step_read hn hb hh] at h
            injection h with h
            exact .inr ⟨_, _, rfl, .inr (.inl ⟨offset, rfl, hh, h.symm⟩)⟩
      | wr width offset v =>
        cases width with
        | byte => rw [step_host hn hb] at h; cases h
        | half => rw [step_host hn hb] at h; cases h
        | word =>
          by_cases hh : s.holds offset = true
          · rw [step_held hn hb (.inr ⟨v, rfl⟩) hh] at h
            injection h with h
            exact .inl h.symm
          · rw [Bool.not_eq_true] at hh
            rw [step_write hn hb hh] at h
            injection h with h
            exact .inr ⟨_, _, rfl, .inr (.inr ⟨offset, v, rfl, hh, h.symm⟩)⟩

/-! ### What a latched word does, completed or aborted -/

/-- A command's effect depends on neither the schedule nor the host's program. -/
@[simp] theorem commandEffect_popped (i : Instr) (s : State) : commandEffect i (popped s) = commandEffect i s := by
  cases i <;> rfl

theorem wordEffect_of_decode {w : Word} {i : Instr} (h : decode w = .ok i) (s : State) :
    wordEffect w s = commandEffect i s := by
  rw [wordEffect, h]

theorem wordEffect_sound (w : Word) (s : State) : (wordEffect w s).Sound := by
  unfold wordEffect
  split
  · exact commandEffect_sound _ _
  · exact sound_raise (by decide)

@[simp] theorem drawBytes_length (k a n : Nat) : (drawBytes k a n).length = n := by
  induction n generalizing a with
  | zero => rfl
  | succ n ih => simp [drawBytes, ih]

/-- An abort leaves every byte outside the regions of the word's effect (70_reset_and_hazards.md R233). -/
theorem read_abortedMemory_outside (w : Word) (s : State) (x : Nat)
    (h : ∀ d ∈ (wordEffect w s).writes, ¬ (d.1 ≤ x ∧ x < d.1 + d.2.length)) :
    (abortedMemory w s).read x = s.dmem.read x := by
  apply Memory.read_writeAll_outside
  intro d hd
  obtain ⟨q, hq, rfl⟩ := List.mem_map.1 hd
  simpa using h q hq

theorem wf_abortedMemory (w : Word) (s : State) (h : s.dmem.wf) : (abortedMemory w s).wf := by
  apply Memory.wf_writeAll _ _ h
  intro d hd
  obtain ⟨q, hq, rfl⟩ := List.mem_map.1 hd
  simpa using (wordEffect_sound w s).inMemory q hq

/-! ### Reads and writes, by register -/

/-- A read changes nothing but DADDR, and that only at DDATA (20_memory.md R63). -/
theorem readReg_snd (offset : Word) (s : State) :
    (readReg offset s).2 = s ∨ (regAt offset = some .ddata ∧ (readReg offset s).2 = s.advanceDaddr) := by
  unfold readReg
  cases h : regAt offset with
  | none => exact .inl rfl
  | some r => cases r <;> simp

/-- A read of a register other than DDATA. -/
theorem readReg_of_regAt {offset : Word} {r : Reg} (h : regAt offset = some r) (hr : r ≠ .ddata) (s : State) :
    readReg offset s = (s.regValue r, s) := by
  unfold readReg
  rw [h]
  cases r <;> first | rfl | exact absurd rfl hr

theorem readReg_ddata {offset : Word} (h : regAt offset = some .ddata) (s : State) :
    readReg offset s = (s.ddataValue, s.advanceDaddr) := by
  unfold readReg
  rw [h]
  rfl

theorem readReg_none {offset : Word} (h : regAt offset = none) (s : State) : readReg offset s = (0, s) := by
  unfold readReg
  rw [h]

/-- Everything a write of DDATA does (10_state.md R36, R37). -/
theorem State.writeDdata_eq (s : State) (v : Word) :
    s.writeDdata v =
      { s with
        daddr := s.daddr + 1
        dmem := if s.daddr.toNat < Config.dmemSize then s.dmem.write s.daddr.toNat (v.setWidth 8) else s.dmem } := by
  unfold State.writeDdata
  split <;> rfl

theorem writeReg_none {offset : Word} (h : regAt offset = none) (v : Word) (s : State) : writeReg offset v s = s := by
  unfold writeReg
  rw [h]

end Sys2Proof.Machine
end

