-- ==== Sys2Proof/Laws/Run.lean ====
section
/-! SUPPORT. Runs of several steps: one step at a time, and one run after another. -/

namespace Sys2Proof.Machine

theorem run_succ {k : Nat} {s t : State} (h : step s = .next t) :
    Sys2Proof.core.run (k + 1) s = Sys2Proof.core.run k t := by
  simp only [Host.Core.run]
  rw [show Sys2Proof.core.step s = .next t from h]

theorem run_add {a : Nat} (b : Nat) {s t : State} (h : Sys2Proof.core.run a s = .next t) :
    Sys2Proof.core.run (a + b) s = Sys2Proof.core.run b t := by
  induction a generalizing s with
  | zero =>
    rw [Nat.zero_add]
    injection h with h
    rw [h]
  | succ a ih =>
    cases hs : step s with
    | next u =>
      rw [run_succ hs] at h
      rw [Nat.add_right_comm, run_succ hs]
      exact ih h
    | fault r => cases r
    | refused r =>
      simp only [Host.Core.run] at h
      rw [show Sys2Proof.core.step s = .refused r from hs] at h
      cases h

/-- With no turn scheduled and the engine idle, the host moves. -/
theorem nextTurn_of_idle {s : State} (he : s.eng = .idle) (hs : s.schedule = []) : nextTurn s = .host := by
  simp [nextTurn_of_nil hs, defaultTurn, s.busy_eq_false_iff.2 he]

end Sys2Proof.Machine
end

