-- ==== Sys2Proof/Laws/Slots.lean ====
section
/-! SUPPORT. Classification of DECODE's three slots and the decision table, case by case (41_codec.md R170-R175). -/

namespace Sys2Proof.Machine

/-! ### Classification from the claims alone (41_codec.md R171) -/

/-- `Classify` depends on the slots' claims alone. -/
def classifyClaims (c : Triple (Option Role)) : Except Cause (Triple Role) :=
  if (c.toList.filterMap id).length < 2 then .error .fewGood
  else if ¬ (c.toList.filterMap id).Nodup then .error .roleConflict
  else .ok (c.map fun ci => ci.getD (missingRole (c.toList.filterMap id)))

theorem classify_eq_claims (v : Triple Validation) : classify v = classifyClaims (v.map claimOf) := rfl

theorem classifyClaims_few (c0 c1 c2 : Option Role)
    (h : (c0 = none ∧ c1 = none) ∨ (c0 = none ∧ c2 = none) ∨ (c1 = none ∧ c2 = none)) :
    classifyClaims ⟨c0, c1, c2⟩ = .error .fewGood := by
  rcases h with ⟨rfl, rfl⟩ | ⟨rfl, rfl⟩ | ⟨rfl, rfl⟩
  · rcases c2 with _ | (_ | _ | _) <;> rfl
  · rcases c1 with _ | (_ | _ | _) <;> rfl
  · rcases c0 with _ | (_ | _ | _) <;> rfl

theorem classifyClaims_conflict (c0 c1 c2 : Option Role)
    (hgood : (c0 ≠ none ∨ c1 ≠ none) ∧ (c0 ≠ none ∨ c2 ≠ none) ∧ (c1 ≠ none ∨ c2 ≠ none))
    (hsame : (c0 = c1 ∧ c0 ≠ none) ∨ (c0 = c2 ∧ c0 ≠ none) ∨ (c1 = c2 ∧ c1 ≠ none)) :
    classifyClaims ⟨c0, c1, c2⟩ = .error .roleConflict := by
  rcases c0 with _ | (_ | _ | _) <;> rcases c1 with _ | (_ | _ | _) <;> rcases c2 with _ | (_ | _ | _) <;>
    first | rfl | exact absurd hgood (by decide) | exact absurd hsame (by decide)

/-- Good slots that claim distinct roles, one at most being bad: each slot has the role it claims, the bad one the role left
over. -/
theorem classifyClaims_assigned (c0 c1 c2 : Option Role) (r0 r1 r2 : Role) (h01 : r0 ≠ r1) (h02 : r0 ≠ r2)
    (h12 : r1 ≠ r2) (hgood : (c0 ≠ none ∨ c1 ≠ none) ∧ (c0 ≠ none ∨ c2 ≠ none) ∧ (c1 ≠ none ∨ c2 ≠ none))
    (h0 : c0 = none ∨ c0 = some r0) (h1 : c1 = none ∨ c1 = some r1) (h2 : c2 = none ∨ c2 = some r2) :
    classifyClaims ⟨c0, c1, c2⟩ = .ok ⟨r0, r1, r2⟩ := by
  rcases h0 with rfl | rfl <;> rcases h1 with rfl | rfl <;> rcases h2 with rfl | rfl <;>
    first
      | simp at hgood; done
      | (cases r0 <;> cases r1 <;> cases r2 <;>
          first | rfl | exact absurd rfl h01 | exact absurd rfl h02 | exact absurd rfl h12)

/-- Every triple of claims falls under one of the three cases. -/
theorem classifyClaims_ok_roles {c : Triple (Option Role)} {role : Triple Role}
    (h : classifyClaims c = .ok role) :
    (role.s0 ≠ role.s1 ∧ role.s0 ≠ role.s2 ∧ role.s1 ≠ role.s2) ∧
      (c.s0 = none ∨ c.s0 = some role.s0) ∧ (c.s1 = none ∨ c.s1 = some role.s1) ∧
      (c.s2 = none ∨ c.s2 = some role.s2) ∧
      (c.s0 ≠ none ∨ c.s1 ≠ none) ∧ (c.s0 ≠ none ∨ c.s2 ≠ none) ∧ (c.s1 ≠ none ∨ c.s2 ≠ none) := by
  obtain ⟨c0, c1, c2⟩ := c
  rcases c0 with _ | (_ | _ | _) <;> rcases c1 with _ | (_ | _ | _) <;> rcases c2 with _ | (_ | _ | _) <;>
    first
      | (injection h; done)
      | (injection h with h; subst h; decide)

/-! ### The claims of DECODE's slots -/

theorem claimOf_slot_good {s : State} {i : Fin 3} (h : slotGood s i = true) :
    claimOf (validateBlock (slotBytes s i)) = some (claimedRole (orderByte (slotBytes s i))) := by
  have hg : (validateBlock (slotBytes s i)).good = true := h
  rw [claimOf, if_pos hg, validateBlock_of_length (length_of_good hg)]

theorem claimOf_slot_bad {s : State} {i : Fin 3} (h : slotGood s i = false) :
    claimOf (validateBlock (slotBytes s i)) = none := by
  have hg : (validateBlock (slotBytes s i)).good = false := h
  rw [claimOf, hg]
  rfl

theorem claimOf_slot_claims {s : State} {i : Fin 3} {r : Role} (h : slotClaims s i r) :
    claimOf (validateBlock (slotBytes s i)) = some r := by
  rw [claimOf_slot_good h.1, h.2]

/-- The slots DECODE decodes, with equal lengths. -/
theorem decodeSlots_eq (s : State) (h : ∀ i, slotLen s i = slotLen s 0) :
    decodeSlots s = ⟨slotBytes s 0, slotBytes s 1, slotBytes s 2⟩ := by
  rw [← decodeSlots_get s h 0, ← decodeSlots_get s h 1, ← decodeSlots_get s h 2]
  rfl

/-- DECODE past its first two checks. -/
theorem decodeEffect_of_readable {s : State} (h : SlotsReadable s) :
    decodeEffect s =
      match decodeBlocks (slotLen s 0) (decodeSlots s) with
      | .error c => decodeFailure .unrecoverable c (slotMap ((decodeSlots s).map validateBlock))
      | .ok d => decodeDeliver (decodeOperands s) (slotMap ((decodeSlots s).map validateBlock)) d := by
  obtain ⟨hlen, hrange⟩ := h
  have h0 := hrange 0
  have h1 := hrange 1
  have h2 := hrange 2
  rw [hlen 1] at h1
  rw [hlen 2] at h2
  have he := decodeEffect_eq s
  rw [if_neg (fun hne => hne ⟨(hlen 1).symm, (hlen 1).trans (hlen 2).symm⟩), if_neg (fun hne => hne ⟨h0, h1, h2⟩)] at he
  exact he

/-! ### The role of each slot when A, B and X are at `iA`, `iB` and `iX` -/

/-- The role of slot `i` when A is at `iA` and B at `iB`. -/
def roleAt (iA iB i : Fin 3) : Role := if i = iA then .a else if i = iB then .b else .x

/-- The assignment of all three. -/
def rolesAt (iA iB : Fin 3) : Triple Role := ⟨roleAt iA iB 0, roleAt iA iB 1, roleAt iA iB 2⟩

theorem slotOf_rolesAt {iA iB iX : Fin 3} (hAB : iA ≠ iB) (hAX : iA ≠ iX) (hBX : iB ≠ iX) :
    slotOf (rolesAt iA iB) .a = iA ∧ slotOf (rolesAt iA iB) .b = iB ∧ slotOf (rolesAt iA iB) .x = iX := by
  revert iA iB iX
  decide

theorem rolesAt_code {iA iB iX : Fin 3} (hAB : iA ≠ iB) (hAX : iA ≠ iX) (hBX : iB ≠ iX) :
    roleCode (some (roleAt iA iB 0)) * 2 ^ 8 + roleCode (some (roleAt iA iB 1)) * 2 ^ 10
      + roleCode (some (roleAt iA iB 2)) * 2 ^ 12 = 2 ^ 8 * (4 ^ iB.val + 2 * 4 ^ iX.val) := by
  revert iA iB iX
  decide

theorem fin3_cases {iA iB iX : Fin 3} (hAB : iA ≠ iB) (hAX : iA ≠ iX) (hBX : iB ≠ iX) (i : Fin 3) :
    i = iA ∨ i = iB ∨ i = iX := by
  revert iA iB iX i
  decide

theorem roleAt_distinct {iA iB : Fin 3} (hAB : iA ≠ iB) :
    roleAt iA iB 0 ≠ roleAt iA iB 1 ∧ roleAt iA iB 0 ≠ roleAt iA iB 2 ∧ roleAt iA iB 1 ≠ roleAt iA iB 2 := by
  revert iA iB
  decide

theorem forall_fin3_of_distinct {P : Fin 3 → Prop} {iA iB iX : Fin 3} (hAB : iA ≠ iB) (hAX : iA ≠ iX) (hBX : iB ≠ iX)
    (hA : P iA) (hB : P iB) (hX : P iX) (i : Fin 3) : P i := by
  rcases fin3_cases hAB hAX hBX i with rfl | rfl | rfl <;> assumption

/-- Good slots claim the roles of their places and one at most is bad: `Classify` assigns those roles. -/
theorem classify_slots {s : State} {iA iB iX : Fin 3} (hs : ∀ i, slotLen s i = slotLen s 0) (hAB : iA ≠ iB)
    (hAX : iA ≠ iX) (hBX : iB ≠ iX) (hA : slotGood s iA = true → slotClaims s iA .a)
    (hB : slotGood s iB = true → slotClaims s iB .b) (hX : slotGood s iX = true → slotClaims s iX .x)
    (hgood : ∀ i j, i ≠ j → slotGood s i = true ∨ slotGood s j = true) :
    classify ((decodeSlots s).map validateBlock) = .ok (rolesAt iA iB) := by
  have hclaim : ∀ i, claimOf (validateBlock (slotBytes s i)) = none ∨
      claimOf (validateBlock (slotBytes s i)) = some (roleAt iA iB i) := by
    have hcase : ∀ i r, (slotGood s i = true → slotClaims s i r) → claimOf (validateBlock (slotBytes s i)) = none ∨
        claimOf (validateBlock (slotBytes s i)) = some r := by
      intro i r hi
      cases hg : slotGood s i with
      | false => exact .inl (claimOf_slot_bad hg)
      | true => exact .inr (claimOf_slot_claims (hi hg))
    refine forall_fin3_of_distinct hAB hAX hBX ?_ ?_ ?_
    · simpa [roleAt] using hcase iA .a hA
    · simpa [roleAt, hAB.symm] using hcase iB .b hB
    · simpa [roleAt, hAX.symm, hBX.symm] using hcase iX .x hX
  have hsome : ∀ i j, i ≠ j → claimOf (validateBlock (slotBytes s i)) ≠ none ∨
      claimOf (validateBlock (slotBytes s j)) ≠ none := by
    intro i j hij
    rcases hgood i j hij with h | h
    · exact .inl (by simp [claimOf_slot_good h])
    · exact .inr (by simp [claimOf_slot_good h])
  rw [classify_eq_claims, decodeSlots_eq s hs]
  have hne := roleAt_distinct hAB
  exact classifyClaims_assigned _ _ _ _ _ _ hne.1 hne.2.1 hne.2.2
    ⟨hsome 0 1 (by decide), hsome 0 2 (by decide), hsome 1 2 (by decide)⟩ (hclaim 0) (hclaim 1) (hclaim 2)

/-- RES2 when the roles are assigned (41_codec.md R176). -/
theorem slotMap_slots {s : State} {iA iB iX : Fin 3} (hs : ∀ i, slotLen s i = slotLen s 0) (hAB : iA ≠ iB)
    (hAX : iA ≠ iX) (hBX : iB ≠ iX)
    (hclass : classify ((decodeSlots s).map validateBlock) = .ok (rolesAt iA iB)) :
    slotMap ((decodeSlots s).map validateBlock) =
      BitVec.ofNat 32 (goodMask s + 2 ^ 8 * (4 ^ iB.val + 2 * 4 ^ iX.val)) := by
  have hcode := rolesAt_code hAB hAX hBX
  unfold slotMap
  rw [hclass, decodeSlots_eq s hs, ← hcode]
  show BitVec.ofNat 32 _ = _
  congr 1
  simp only [goodMask, slotGood, Triple.map, rolesAt]
  omega

/-- The decision table's inputs are the slots' own bytes and validations. -/
theorem decodeSlots_validation_get {s : State} (hs : ∀ i, slotLen s i = slotLen s 0) (i : Fin 3) :
    ((decodeSlots s).map validateBlock).get i = validateBlock (slotBytes s i) := by
  rw [decodeSlots_eq s hs]
  match i with
  | 0 => rfl
  | 1 => rfl
  | 2 => rfl

/-- RES2 when `Classify` failed: the claimed role of each good slot, none for a bad one (41_codec.md R176). -/
theorem slotMap_of_error {s : State} (hs : ∀ i, slotLen s i = slotLen s 0) {c : Cause}
    (hc : classify ((decodeSlots s).map validateBlock) = .error c) :
    slotMap ((decodeSlots s).map validateBlock) =
      BitVec.ofNat 32 (goodMask s + 2 ^ 8 *
        (roleCode (if slotGood s 0 then some (claimedRole (orderByte (slotBytes s 0))) else none)
          + 4 * roleCode (if slotGood s 1 then some (claimedRole (orderByte (slotBytes s 1))) else none)
          + 16 * roleCode (if slotGood s 2 then some (claimedRole (orderByte (slotBytes s 2))) else none))) := by
  have hclaim : ∀ i, claimOf (validateBlock (slotBytes s i)) =
      if slotGood s i then some (claimedRole (orderByte (slotBytes s i))) else none := by
    intro i
    cases hg : slotGood s i with
    | false => rw [claimOf_slot_bad hg]; rfl
    | true => rw [claimOf_slot_good hg]; rfl
  unfold slotMap
  rw [hc, decodeSlots_eq s hs]
  show BitVec.ofNat 32 _ = _
  simp only [Triple.map, hclaim]
  congr 1
  simp only [goodMask, slotGood]
  omega

theorem slotBytes_length {s : State} (hs : ∀ i, slotLen s i = slotLen s 0) (i : Fin 3) :
    (slotBytes s i).length = slotLen s 0 := by
  rw [slotBytes, Memory.readBytes_length, hs i]

theorem coveredRegion_slot {s : State} (hs : ∀ i, slotLen s i = slotLen s 0) (i : Fin 3) :
    coveredRegion (slotBytes s i) = (slotBytes s i).take (slotLen s 0 - 4) := by
  rw [coveredRegion, slotBytes_length hs]
  rfl

/-- The decision table on the slots, with A, B and X at `iA`, `iB` and `iX` (41_codec.md R172). -/
theorem recover_slots {s : State} {iA iB iX : Fin 3} (hs : ∀ i, slotLen s i = slotLen s 0) (hAB : iA ≠ iB)
    (hAX : iA ≠ iX) (hBX : iB ≠ iX) :
    recover (decodeSlots s) ((decodeSlots s).map validateBlock) (rolesAt iA iB) =
      let covered := fun i => (slotBytes s i).take (slotLen s 0 - 4)
      if ¬ slotGood s iB then
        { lenA := (validateBlock (slotBytes s iA)).declared
          lenB := declaredLength (xorBytes (covered iA) (covered iX))
          fromA := slotBytes s iA, fromB := xorBytes (covered iA) (covered iX), broken := some (iB, .b) }
      else if ¬ slotGood s iA then
        { lenA := declaredLength (xorBytes (covered iB) (covered iX))
          lenB := (validateBlock (slotBytes s iB)).declared
          fromA := xorBytes (covered iB) (covered iX), fromB := slotBytes s iB, broken := some (iA, .a) }
      else
        { lenA := (validateBlock (slotBytes s iA)).declared, lenB := (validateBlock (slotBytes s iB)).declared
          fromA := slotBytes s iA, fromB := slotBytes s iB
          broken := if slotGood s iX then none else some (iX, .x) } := by
  obtain ⟨h1, h2, h3⟩ := slotOf_rolesAt hAB hAX hBX
  unfold recover
  simp only [h1, h2, h3, decodeSlots_validation_get hs, decodeSlots_get s hs, coveredRegion_slot hs]
  rfl

/-- DECODE past `Classify`, as one equation over the chosen row of the decision table (41_codec.md R174, R180). -/
theorem decodeEffect_of_roles {s : State} (h : SlotsReadable s) {role : Triple Role} {r : Recovery}
    (hc : classify ((decodeSlots s).map validateBlock) = .ok role)
    (hr : recover (decodeSlots s) ((decodeSlots s).map validateBlock) role = r) :
    decodeEffect s =
      let map := slotMap ((decodeSlots s).map validateBlock)
      let dst := s.args[6].toNat
      let m := r.lenA + r.lenB
      if r.lenA > slotLen s 0 - 5 - 4 ∨ r.lenB > slotLen s 0 - 5 - 4 then decodeFailure .unrecoverable .beyondCapacity map
      else if ¬ dst + m ≤ Config.dmemSize then decodeFailure .range .outOfRange map
      else if overlap dst m (slotAddr s 0) (slotLen s 0) ∨ overlap dst m (slotAddr s 1) (slotLen s 0) ∨
          overlap dst m (slotAddr s 2) (slotLen s 0) then decodeFailure .overlap .overlapsSlot map
      else
        { writes := [(dst, payloadSlice r.fromA r.lenA ++ payloadSlice r.fromB r.lenB)]
          results := [(0, BitVec.ofNat 32 m), (1, brokenWord r.broken), (2, map), (3, 0)] } := by
  have hd : decodeBlocks (slotLen s 0) (decodeSlots s) = finishDecode (slotLen s 0) r := by
    unfold decodeBlocks
    rw [hc, ← hr]
  have hf : finishDecode (slotLen s 0) r =
      if r.lenA > slotLen s 0 - 5 - 4 ∨ r.lenB > slotLen s 0 - 5 - 4 then .error .beyondCapacity
      else .ok { lenA := r.lenA, lenB := r.lenB, broken := r.broken,
                 payload := payloadSlice r.fromA r.lenA ++ payloadSlice r.fromB r.lenB } := rfl
  have he := decodeEffect_of_readable h
  rw [hd] at he
  by_cases hl : r.lenA > slotLen s 0 - 5 - 4 ∨ r.lenB > slotLen s 0 - 5 - 4
  · rw [if_pos hl] at hf
    rw [he, hf]
    dsimp only
    rw [if_pos hl]
  · rw [if_neg hl] at hf
    rw [he, hf]
    dsimp only
    rw [if_neg hl]
    rfl

end Sys2Proof.Machine
end

