-- ==== Sys2Proof/Tests/Slice0.lean ====
section
/-! SUPPORT. Tests with the expected values of 95_test_vectors.md (named in each docstring), ill-formed terms that
WellFormed refuses, words written out bit by bit, and for each obligation with hypotheses a witness that meets them
(`witness_…`, the obligation's name following). -/

namespace Sys2Proof.Tests.Slice0

open Sys2Proof Sys2Proof.Machine

/-! ### Helpers -/

/-- What an outcome's next state shows, if there is one. -/
def shows {α : Type} (o : Host.Outcome State Fault Refusal) (f : State → α) : Option α :=
  match o with
  | .next t => some (f t)
  | .fault _ => none
  | .refused _ => none

/-- The reset state with ARG0..ARG6 and some regions of DMEM written. -/
def machine (args : Vector Word 8) (mem : List (Nat × List Byte)) : State :=
  { State.reset with args := args, dmem := Memory.writeAll [] mem }

/-- The reset state with a host program. -/
def hostRuns (bus : List HostOp) : State := { State.reset with bus := bus }

/-- `hostRuns` while the engine executes a word as its issue left it, the host to move next. -/
def hostWaits (w : Word) (bus : List HostOp) : State :=
  { (hostRuns bus).issue w with schedule := [.host] }

/-- The ASCII bytes of "hello there" (E1). -/
def helloThere : List Byte := [0x68, 0x65, 0x6c, 0x6c, 0x6f, 0x20, 0x74, 0x68, 0x65, 0x72, 0x65]

/-- Block A of E1. -/
def blockA : List Byte := [0x01, 0, 0, 0, 0x05, 0x68, 0x65, 0x6c, 0x6c, 0x6f, 0x00, 0x08, 0x74, 0x02, 0x1b]

/-- Block B of E1. -/
def blockB : List Byte := [0x02, 0, 0, 0, 0x06, 0x20, 0x74, 0x68, 0x65, 0x72, 0x65, 0x07, 0x67, 0x02, 0x41]

/-- Block B of E1 with bit 0 of byte 5 flipped. -/
def blockBFlipped : List Byte := blockB.set 5 0x21

/-- Block X of E1. -/
def blockX : List Byte := [0x03, 0, 0, 0, 0x03, 0x48, 0x11, 0x04, 0x09, 0x1d, 0x65, 0x03, 0x10, 0x00, 0xef]

/-- Three slots at 0x100, 0x200 and 0x300, each 15 bytes, and the destination 0x400 (section 5). -/
def slots (b0 b1 b2 : List Byte) : State :=
  machine #v[0x100, 0x200, 0x300, 15, 15, 15, 0x400, 0] [(0x100, b0), (0x200, b1), (0x300, b2)]

/-! ### WellFormed refuses what is ill formed -/

theorem test_wf_byte_write : ¬ (HostOp.wr .byte 0x020 1).WellFormed := by decide
theorem test_wf_half_read : ¬ (HostOp.rd .half 0x040).WellFormed := by decide
theorem test_wf_word_write : (HostOp.wr .word 0x020 1).WellFormed := by decide
theorem test_wf_unassigned_opcode : ¬ LegalWord 0x00000007 ∧ ¬ LegalWord 0x0000000B ∧ ¬ LegalWord 0x000000FF := by decide
theorem test_wf_reserved_bits : ¬ LegalWord 0x00000109 ∧ ¬ LegalWord 0x80000000 := by decide
theorem test_wf_missing_operand : ¬ (HostPseudo.command .frame [0x100, 0, 5, 15]).WellFormed := by decide
theorem test_wf_extra_operand : ¬ (HostPseudo.command .nop [0]).WellFormed := by decide
theorem test_wf_poke_text : ¬ (HostPseudo.pokeText 0 "\u00e9").WellFormed ∧ (HostPseudo.pokeText 0 "abc").WellFormed := by
  simp [HostPseudo.WellFormed]
theorem test_wf_base_narrow : ¬ (HostPseudo.base (.rd .byte 0x040)).WellFormed := by decide

/-! ### Words written out from 30_encoding.md R70 (OP in [7:0], RSV in [31:8]) and R74 -/

theorem test_decode_nop : decode 0b00000000000000000000000000000000 = .ok .nop := by decide
theorem test_decode_wruint : decode 0b00000000000000000000000000000001 = .ok .wruint := by decide
theorem test_decode_rduint : decode 0b00000000000000000000000000000010 = .ok .rduint := by decide
theorem test_decode_cksum : decode 0b00000000000000000000000000000011 = .ok .cksum := by decide
theorem test_decode_frame : decode 0b00000000000000000000000000000100 = .ok .frame := by decide
theorem test_decode_seal : decode 0b00000000000000000000000000000101 = .ok .sealBlock := by decide
theorem test_decode_validate : decode 0b00000000000000000000000000000110 = .ok .validate := by decide
theorem test_decode_xor : decode 0b00000000000000000000000000001000 = .ok .xor := by decide
theorem test_decode_encode : decode 0b00000000000000000000000000001001 = .ok .encode := by decide
theorem test_decode_decode : decode 0b00000000000000000000000000001010 = .ok .decode := by decide
theorem test_decode_unassigned :
    decode 0b00000000000000000000000000000111 = .error .unassignedOpcode ∧
      decode 0b00000000000000000000000000001011 = .error .unassignedOpcode ∧
      decode 0b00000000000000000000000011111111 = .error .unassignedOpcode := by decide
theorem test_decode_reserved :
    decode 0b00000000000000000000000100001001 = .error .reservedBits ∧
      decode 0b10000000000000000000000000000000 = .error .reservedBits := by decide
theorem test_table_word : decodeTableWord 32 0x0A = some .decode ∧ decodeTableWord 32 0x0B = none := by decide

/-! ### One step of each command -/

/-- F29: NOP is OK and STATUS reads 0x00000002. -/
theorem test_nop : shows (step (State.reset.withFetchWord 32 0x00)) (·.statusWord) = some 0x00000002 := by decide

/-- F1. -/
theorem test_wruint :
    shows (exec .wruint (machine #v[0x100, 0x12345678, 0, 0, 0, 0, 0, 0] []))
      (fun t => (t.err, t.dmem.readBytes 0x100 4)) = some (.ok, [0x12, 0x34, 0x56, 0x78]) := by decide

/-- F3: RANGE at 0xFFFD, and the bytes F2 wrote are unchanged. -/
theorem test_wruint_range :
    shows (exec .wruint (machine #v[0xFFFD, 0, 0, 0, 0, 0, 0, 0] [(0xFFFC, [0xff, 0xff, 0xff, 0xff])]))
      (fun t => (t.err, t.dmem.readBytes 0xFFFC 4)) = some (.range, [0xff, 0xff, 0xff, 0xff]) := by decide

/-- F5. -/
theorem test_rduint :
    shows (exec .rduint (machine #v[0x101, 0, 0, 0, 0, 0, 0, 0] [(0x100, [0x12, 0x34, 0x56, 0x78, 0x9a])]))
      (fun t => (t.err, t.res[0])) = some (.ok, 0x3456789A) := by decide

/-- F6: RANGE, and RES0 unchanged. -/
theorem test_rduint_range :
    shows (exec .rduint { machine #v[0xFFFD, 0, 0, 0, 0, 0, 0, 0] [] with res := #v[0xDEAD, 0, 0, 0] })
      (fun t => (t.err, t.res[0])) = some (.range, 0xDEAD) := by decide

/-- F7. -/
theorem test_cksum :
    shows (exec .cksum (machine #v[0x200, 3, 0, 0, 0, 0, 0, 0] [(0x200, [0x61, 0x62, 0x63])]))
      (fun t => (t.err, t.res[0])) = some (.ok, 0x024D0127) := by decide

/-- F10: the sum of address and length does not wrap. -/
theorem test_cksum_range :
    shows (exec .cksum (machine #v[0xFFFFFFFF, 2, 0, 0, 0, 0, 0, 0] [])) (·.err) = some .range := by decide

/-- F11. -/
theorem test_frame :
    shows (exec .frame (machine #v[0x100, 0, 5, 15, 1, 0, 0, 0] [(0, helloThere)]))
      (fun t => (t.err, t.dmem.readBytes 0x100 15, t.res[0])) = some (.ok, blockA, 0x0874021B) := by decide

/-- F13: three bytes of padding. -/
theorem test_frame_padding :
    shows (exec .frame (machine #v[0x300, 0, 2, 14, 7, 0, 0, 0] [(0, helloThere)]))
      (fun t => (t.dmem.readBytes 0x300 14, t.res[0])) =
        some ([0x07, 0, 0, 0, 2, 0x68, 0x65, 0, 0, 0, 0x03, 0xf8, 0x00, 0xd7], 0x03F800D7) := by decide

/-- F19. -/
theorem test_seal :
    shows (exec .sealBlock (machine #v[0x100, 15, 0, 0, 0, 0, 0, 0] [(0x100, blockX.take 11 ++ [0xee, 0xee, 0xee, 0xee])]))
      (fun t => (t.err, t.dmem.readBytes 0x100 15, t.res[0])) = some (.ok, blockX, 0x031000EF) := by decide

/-- F21. -/
theorem test_seal_short :
    shows (exec .sealBlock (machine #v[0x200, 3, 0, 0, 0, 0, 0, 0] [])) (·.err) = some .frameSize := by decide

/-- F23. -/
theorem test_validate :
    shows (exec .validate (machine #v[0x100, 15, 0, 0, 0, 0, 0, 0] [(0x100, blockA)])) (fun t => (t.err, t.res)) =
      some (.ok, #v[1, 5, 1, 0x0874021B]) := by decide

/-- F24: bit 0 of byte 5 flipped. -/
theorem test_validate_bad :
    shows (exec .validate (machine #v[0x100, 15, 0, 0, 0, 0, 0, 0] [(0x100, blockA.set 5 0x69)])) (fun t => (t.err, t.res)) =
      some (.ok, #v[1, 5, 0, 0x087A021C]) := by decide

/-- X2: in place. -/
theorem test_xor :
    shows (exec .xor (machine #v[0, 0, 0x10, 5, 0, 0, 0, 0] [(0, [1, 0, 0, 0, 5]), (0x10, [2, 0, 0, 0, 6])]))
      (fun t => (t.err, t.dmem.readBytes 0 5)) = some (.ok, [3, 0, 0, 0, 3]) := by decide

/-- X6. -/
theorem test_xor_overlap :
    shows (exec .xor (machine #v[1, 0, 0x40, 5, 0, 0, 0, 0] [])) (·.err) = some .overlap := by decide

/-- N4: an odd payload, "abc". -/
theorem test_encode :
    shows (exec .encode (machine #v[0, 3, 0x100, 0x200, 0x300, 0, 0, 0] [(0, [0x61, 0x62, 0x63])]))
      (fun t => (t.dmem.readBytes 0x100 11, t.dmem.readBytes 0x200 11, t.dmem.readBytes 0x300 11, t.res)) =
      some ([1, 0, 0, 0, 1, 0x61, 0, 0, 0xd3, 0, 0x64], [2, 0, 0, 0, 2, 0x62, 0x63, 0x01, 0x42, 0, 0xca],
        [3, 0, 0, 0, 3, 0x03, 0x63, 0, 0x8e, 0, 0x6d], #v[11, 1, 2, 0]) := by decide +kernel

/-- N10: A's last byte is B's first. -/
theorem test_encode_overlap :
    shows (exec .encode (machine #v[0, 11, 0x100, 0x10E, 0x300, 0, 0, 0] [])) (·.err) = some .overlap := by decide

/-- DC11: B is bad and rebuilt. -/
theorem test_decode_rebuilds_b :
    shows (exec .decode (slots blockA blockBFlipped blockX)) (fun t => (t.err, t.res, t.dmem.readBytes 0x400 11)) =
      some (.ok, #v[11, 0x111, 0x2405, 0], helloThere) := by decide +kernel

/-- DC18: one block in two slots. -/
theorem test_decode_conflict :
    shows (exec .decode (slots blockA blockA blockB)) (fun t => (t.err, t.res)) =
      some (.unrecoverable, #v[0, 0, 0x1007, 3]) := by decide +kernel

/-! ### The checksum (section 1) -/

theorem test_adler_ff : adler32 (List.replicate 23 0xFF) = 0x131216EA := by decide
theorem test_adler_s1 : adler32 (List.replicate 257 0xFF) = 0x080F000F := by decide +kernel
theorem test_adler_wikipedia : adler32 [0x57, 0x69, 0x6b, 0x69, 0x70, 0x65, 0x64, 0x69, 0x61] = 0x11E60398 := by decide

/-! ### The host side -/

/-- P4's illegal word and soft reset: STATUS is 0x00000742 after the completion. -/
theorem test_illegal_word :
    shows (step (State.reset.withFetchWord 32 0x07)) (·.statusWord) = some 0x00000742 := by decide

/-- P4 again: the host's STATUS read right after the CMD write, though its turn is named, waits for the completion. -/
theorem test_illegal_word_at_once :
    shows (step (hostWaits 0x07 [.rd .word 0x00C])) (fun t => (t.bus, t.statusWord)) =
      some ([.rd .word 0x00C], 0x00000742) := by decide

/-- A word with RSV set (F31) reports LASTOP 0x09. -/
theorem test_reserved_word :
    shows (step (State.reset.withFetchWord 32 0x109)) (fun t => (t.err, t.lastop)) = some (.illegalCmd, 0x09) := by decide

/-- The expansion of P3's SEAL line: offsets and data of its three transactions. -/
theorem test_expand_seal :
    assembleProgram [.command .sealBlock [0x300, 11]] =
      [.wr .word 0x020 0x300, .wr .word 0x024 0x0B, .wr .word 0x010 0x05] := by decide

/-- The expansion of P3's poke. -/
theorem test_expand_poke :
    assembleProgram [.pokeText 0 "abc"] =
      [.wr .word 0x050 0, .wr .word 0x054 0x61, .wr .word 0x054 0x62, .wr .word 0x054 0x63] := by decide

/-- An access narrower than a word is refused. -/
theorem test_narrow_refused : shows (step (hostRuns [.rd .byte 0x040])) (·.bus) = none := by decide

/-! ### Witnesses: the hypotheses of each obligation can be met, clause by clause -/

theorem witness_DecodingIsTotalAndIllegalWordsComplete :
    LegalWord 0x0000000A ∧ ¬ LegalWord 0x0000000B ∧ ¬ LegalWord 0x00000100 ∧
      (State.reset.issue 0x0000000B).eng = .busy 0x0000000B ∧ (State.reset.issue 0x0000000B).schedule.head? ≠ some .rst ∧
      (hostWaits 0xFFFFFF00 [.wait]).eng = .busy 0xFFFFFF00 ∧ (hostWaits 0xFFFFFF00 [.wait]).schedule.head? = some .host := by
  decide

theorem witness_StepRunsTheLatchedCommand :
    (State.reset.issue 0x0A).eng = .busy 0x0A ∧ decode 0x0A = .ok .decode ∧ nextTurn (State.reset.issue 0x0A) = .engine ∧
      decode (BitVec.ofNat 32 (0x10000000A % 2 ^ 32)) = .ok .decode := by decide

theorem witness_CmdWriteIssues :
    nextTurn (hostRuns [.wr .word 0x00001010 5]) = .host ∧ (hostRuns [.wr .word 0x00001010 5]).eng = .idle ∧
      (0x00001010 : Word).toNat % 4096 = 0x010 ∧
      nextTurn (hostWaits 6 [.wr .word 0x010 5]) = .host ∧ (hostWaits 6 [.wr .word 0x010 5]).eng ≠ .idle := by decide

theorem witness_ErrorsHaveNoPartialEffect :
    shows (exec .frame (machine #v[0, 0, 0, 8, 0, 0, 0, 0] [])) (·.err) = some .frameSize ∧
      shows (exec .decode (machine #v[0, 0, 0, 15, 15, 14, 0, 0] [])) (·.err) = some .sizeMismatch := by decide

theorem witness_SizeOverflowIsUnreachable :
    shows (exec .wruint (machine #v[0, 0xFFFFFFFF, 0, 0, 0, 0, 0, 0] [])) (·.err) = some .ok := by decide

theorem witness_IssuedCommandsComplete :
    (hostWaits 0 [.wait, .rd .word 0x040]).eng = .busy 0 ∧ Turn.rst ∉ (hostWaits 0 [.wait, .rd .word 0x040]).schedule ∧
      (∀ op ∈ (hostWaits 0 [.wait, .rd .word 0x040]).bus, op.WellFormed) ∧ (State.reset.issue 0x07).schedule = [] :=
  ⟨by decide, by decide, by simp [hostWaits, hostRuns, State.issue, HostOp.WellFormed], by decide⟩

/-- P4's two accesses with no turn scheduled, and with the host named between them. -/
theorem witness_IllegalWordCompletesAtOnce :
    (hostRuns [.wr .word 0x010 0x07, .rd .word 0x00C]).eng = .idle ∧ ¬ LegalWord 0x07 ∧
      (0x010 : Word).toNat % 4096 = 0x010 ∧ (0x00C : Word).toNat % 4096 = 0x00C ∧
      (hostRuns [.wr .word 0x010 0x07, .rd .word 0x00C]).schedule = [] ∧ Turn.host ≠ .rst ∧ Turn.engine ≠ .rst ∧
      2 + 16 * 4 + 256 * ((0x07 : Word).toNat % 256) = 0x742 := by decide

/-- F2 and F3: the last address that fits and the first that does not. -/
theorem witness_WruintStoresBigEndian :
    shows (exec .wruint (machine #v[0xFFFC, 0xFFFFFFFF, 0, 0, 0, 0, 0, 0] [])) (·.err) = some .ok ∧
      shows (exec .wruint (machine #v[0xFFFD, 0, 0, 0, 0, 0, 0, 0] [])) (·.err) = some .range := by decide

theorem witness_RduintLoadsBigEndian :
    shows (exec .rduint (machine #v[0xFFFC, 0, 0, 0, 0, 0, 0, 0] [(0xFFFC, [0x80, 0, 0, 1])])) (fun t => (t.err, t.res[0])) =
        some (.ok, 0x80000001) ∧
      shows (exec .rduint (machine #v[0xFFFD, 0, 0, 0, 0, 0, 0, 0] [])) (·.err) = some .range := by decide

/-- F8 and F9. -/
theorem witness_CksumComputesAdler :
    shows (exec .cksum (machine #v[0x10000, 0, 0, 0, 0, 0, 0, 0] [])) (fun t => (t.err, t.res[0])) = some (.ok, 1) ∧
      shows (exec .cksum (machine #v[0x10000, 1, 0, 0, 0, 0, 0, 0] [])) (·.err) = some .range := by decide

/-- F14, source and destination out of range by one, F15's size short by one and exact, F17. -/
theorem witness_FrameBuildsABlock :
    shows (exec .frame (machine #v[0x100, 0, 0, 9, 256, 0, 0, 0] [])) (·.err) = some .range ∧
      shows (exec .frame (machine #v[0x100, 0x10000, 1, 10, 255, 0, 0, 0] [])) (·.err) = some .range ∧
      shows (exec .frame (machine #v[0xFFF8, 0, 0, 9, 255, 0, 0, 0] [])) (·.err) = some .range ∧
      shows (exec .frame (machine #v[0x400, 0, 5, 13, 1, 0, 0, 0] [])) (·.err) = some .frameSize ∧
      shows (exec .frame (machine #v[1, 8, 5, 15, 1, 0, 0, 0] [])) (·.err) = some .overlap ∧
      shows (exec .frame (machine #v[0xFFF7, 0x10000, 0, 9, 255, 0, 0, 0] [])) (·.err) = some .ok := by decide

/-- F22, F21, F20. -/
theorem witness_SealStoresTheChecksum :
    shows (exec .sealBlock (machine #v[0xFFFD, 4, 0, 0, 0, 0, 0, 0] [])) (·.err) = some .range ∧
      shows (exec .sealBlock (machine #v[0xFFFD, 3, 0, 0, 0, 0, 0, 0] [])) (·.err) = some .frameSize ∧
      shows (exec .sealBlock (machine #v[0xFFFC, 4, 0, 0, 0, 0, 0, 0] [])) (fun t => (t.err, t.dmem.readBytes 0xFFFC 4)) =
        some (.ok, [0, 0, 0, 1]) := by decide

/-- F28, F27, F12's block. -/
theorem witness_ValidateReportsTheBlock :
    shows (exec .validate (machine #v[0xFFF8, 9, 0, 0, 0, 0, 0, 0] [])) (·.err) = some .range ∧
      shows (exec .validate (machine #v[0xFFF8, 8, 0, 0, 0, 0, 0, 0] [])) (fun t => (t.err, t.res)) =
        some (.ok, #v[0, 0, 0, 0]) ∧
      shows (exec .validate (machine #v[0xFFF7, 9, 0, 0, 0, 0, 0, 0] [(0xFFF7, [2, 0, 0, 0, 0, 0, 0x0f, 0, 3])]))
        (fun t => (t.err, t.res)) = some (.ok, #v[2, 0, 1, 0x000F0003]) := by decide

/-- X7, X6, X5 and the adjacent regions. -/
theorem witness_XorIsBytewise :
    shows (exec .xor (machine #v[0, 0xFFFF, 0x40, 2, 0, 0, 0, 0] [])) (·.err) = some .range ∧
      shows (exec .xor (machine #v[4, 0, 0x40, 5, 0, 0, 0, 0] [])) (·.err) = some .overlap ∧
      shows (exec .xor (machine #v[5, 0, 0, 5, 0, 0, 0, 0] [(0, [1, 2, 3, 4, 5])])) (fun t => (t.err, t.dmem.readBytes 5 5)) =
        some (.ok, [0, 0, 0, 0, 0]) ∧
      shows (exec .xor (machine #v[0x10000, 0x10000, 0x10000, 0, 0, 0, 0, 0] [])) (·.err) = some .ok := by decide

/-- N8, N10, N13. -/
theorem witness_EncodeWritesTheCodeword :
    shows (exec .encode (machine #v[0, 11, 0x100, 0x200, 0xFFF5, 0, 0, 0] [])) (·.err) = some .range ∧
      shows (exec .encode (machine #v[0, 11, 0x100, 0x10E, 0x300, 0, 0, 0] [])) (·.err) = some .overlap ∧
      shows (exec .encode (machine #v[0x10000, 0, 0x100, 0x109, 0xFFF7, 0, 0, 0] [])) (fun t => (t.err, t.res)) =
        some (.ok, #v[9, 0, 0, 0]) := by decide +kernel

theorem slots_readable (b0 b1 b2 : List Byte) : SlotsReadable (slots b0 b1 b2) := by
  constructor <;> intro i <;> match i with
    | 0 | 1 | 2 => simp [slotAddr, slotLen, slots, machine]

/-- DC17, DC21, DC15, DC18: one state for each clause. -/
theorem witness_DecodeFailuresAreReported :
    (¬ (slotLen (machine #v[0, 0, 0, 15, 15, 14, 0, 0] []) 0 = slotLen (machine #v[0, 0, 0, 15, 15, 14, 0, 0] []) 1 ∧
      slotLen (machine #v[0, 0, 0, 15, 15, 14, 0, 0] []) 1 = slotLen (machine #v[0, 0, 0, 15, 15, 14, 0, 0] []) 2)) ∧
    ((∀ i, slotLen (machine #v[0, 0, 0xFFF2, 15, 15, 15, 0, 0] []) i =
        slotLen (machine #v[0, 0, 0xFFF2, 15, 15, 15, 0, 0] []) 0) ∧
      ∃ i, slotAddr (machine #v[0, 0, 0xFFF2, 15, 15, 15, 0, 0] []) i +
        slotLen (machine #v[0, 0, 0xFFF2, 15, 15, 15, 0, 0] []) i > 65536) ∧
    (SlotsReadable (slots (blockA.set 5 0x69) blockBFlipped blockX) ∧
      ∃ i j, i ≠ j ∧ slotGood (slots (blockA.set 5 0x69) blockBFlipped blockX) i = false ∧
        slotGood (slots (blockA.set 5 0x69) blockBFlipped blockX) j = false) ∧
    (SlotsReadable (slots blockA blockA blockB) ∧
      (∀ i j, i ≠ j → slotGood (slots blockA blockA blockB) i = true ∨ slotGood (slots blockA blockA blockB) j = true) ∧
      ∃ i j r, i ≠ j ∧ slotClaims (slots blockA blockA blockB) i r ∧ slotClaims (slots blockA blockA blockB) j r) := by
  refine ⟨by decide, ⟨by decide, by decide⟩, ⟨slots_readable _ _ _, 0, 1, by decide +kernel⟩,
    slots_readable _ _ _, by decide +kernel, 0, 1, .a, by decide, ?_⟩
  unfold slotClaims
  decide +kernel

/-- DC1, and DC9 with a bad X. -/
theorem witness_DecodeFastPath :
    SlotsReadable (slots blockX blockA blockB) ∧ slotClaims (slots blockX blockA blockB) 1 .a ∧
      slotClaims (slots blockX blockA blockB) 2 .b ∧ slotClaims (slots blockX blockA blockB) 0 .x ∧
      SlotsReadable (slots (zeros 15) blockA blockB) ∧ slotClaims (slots (zeros 15) blockA blockB) 1 .a ∧
      slotClaims (slots (zeros 15) blockA blockB) 2 .b ∧ slotGood (slots (zeros 15) blockA blockB) 0 = false := by
  refine ⟨slots_readable _ _ _, ?_, ?_, ?_, slots_readable _ _ _, ?_, ?_, by decide +kernel⟩
  all_goals
    unfold slotClaims
    decide +kernel

/-- DC11. -/
theorem witness_DecodeRebuildsB :
    SlotsReadable (slots blockA blockBFlipped blockX) ∧ slotClaims (slots blockA blockBFlipped blockX) 0 .a ∧
      slotGood (slots blockA blockBFlipped blockX) 1 = false ∧ slotClaims (slots blockA blockBFlipped blockX) 2 .x := by
  refine ⟨slots_readable _ _ _, ?_, by decide +kernel, ?_⟩
  all_goals
    unfold slotClaims
    decide +kernel

/-- DC7. -/
theorem witness_DecodeRebuildsA :
    SlotsReadable (slots (zeros 15) blockB blockX) ∧ slotGood (slots (zeros 15) blockB blockX) 0 = false ∧
      slotClaims (slots (zeros 15) blockB blockX) 1 .b ∧ slotClaims (slots (zeros 15) blockB blockX) 2 .x := by
  refine ⟨slots_readable _ _ _, by decide +kernel, ?_, ?_⟩
  all_goals
    unfold slotClaims
    decide +kernel

/-- The four ends of `DecodeEnds`: DC25 with a length one beyond capacity, DC22, DC24 and DC23. -/
theorem witness_DecodeEnds :
    shows (exec .decode (slots [1, 0, 0, 0, 7, 0x68, 0x65, 0x6c, 0x6c, 0x6f, 0, 0x08, 0x82, 0x02, 0x1d] blockB blockX))
        (fun t => (t.err, t.res[3])) = some (.unrecoverable, 4) ∧
      shows (exec .decode (machine #v[0x100, 0x200, 0x300, 15, 15, 15, 0xFFF6, 0]
        [(0x100, blockA), (0x200, blockB), (0x300, blockX)])) (fun t => (t.err, t.res[3])) = some (.range, 5) ∧
      shows (exec .decode (machine #v[0x100, 0x200, 0x300, 15, 15, 15, 0x30E, 0]
        [(0x100, blockA), (0x200, blockB), (0x300, blockX)])) (fun t => (t.err, t.res[3])) = some (.overlap, 6) ∧
      shows (exec .decode (machine #v[0x100, 0x200, 0x300, 15, 15, 15, 0xFFF5, 0]
        [(0x100, blockA), (0x200, blockB), (0x300, blockX)])) (fun t => (t.err, t.dmem.readBytes 0xFFF5 11)) =
        some (.ok, helloThere) := by decide +kernel

/-- The premises of `DecodeRecoversThePayload` but for `SlotsReadable`, with E1's payload. -/
def recoverable (s : State) (iA iB iX : Fin 3) : Prop :=
  slotLen s 0 = blockLength helloThere.length ∧ iA ≠ iB ∧ iA ≠ iX ∧ iB ≠ iX ∧
    (slotGood s iA = true → slotBytes s iA = (encodePayload helloThere).blkA) ∧
    (slotGood s iB = true → slotBytes s iB = (encodePayload helloThere).blkB) ∧
    (slotGood s iX = true → slotBytes s iX = (encodePayload helloThere).blkX) ∧
    (∀ i j, i ≠ j → slotGood s i = true ∨ slotGood s j = true) ∧
    s.args[6].toNat + helloThere.length ≤ Config.dmemSize ∧
    ∀ i, ¬ overlap s.args[6].toNat helloThere.length (slotAddr s i) (slotLen s 0)

/-- E1: B bad in the order A, B, X (DC11); A bad in the order X, A, B; X bad in the order B, X, A; none bad in the order
X, B, A. -/
theorem witness_DecodeRecoversThePayload :
    (SlotsReadable (slots blockA blockBFlipped blockX) ∧ recoverable (slots blockA blockBFlipped blockX) 0 1 2 ∧
      slotGood (slots blockA blockBFlipped blockX) 1 = false) ∧
    (SlotsReadable (slots blockX (zeros 15) blockB) ∧ recoverable (slots blockX (zeros 15) blockB) 1 2 0 ∧
      slotGood (slots blockX (zeros 15) blockB) 1 = false) ∧
    (SlotsReadable (slots blockB (zeros 15) blockA) ∧ recoverable (slots blockB (zeros 15) blockA) 2 0 1 ∧
      slotGood (slots blockB (zeros 15) blockA) 1 = false) ∧
    SlotsReadable (slots blockX blockB blockA) ∧ recoverable (slots blockX blockB blockA) 2 1 0 := by
  refine ⟨⟨slots_readable _ _ _, ?_, by decide +kernel⟩, ⟨slots_readable _ _ _, ?_, by decide +kernel⟩,
    ⟨slots_readable _ _ _, ?_, by decide +kernel⟩, slots_readable _ _ _, ?_⟩
  all_goals
    unfold recoverable
    decide +kernel

/-- P1 then DC5: ENCODE of "hello there", DECODE with the slots in the order X, A, B. -/
theorem witness_EncodeThenDecodeReturnsThePayload :
    shows (exec .encode (machine #v[0, 11, 0x100, 0x200, 0x300, 0, 0, 0] [(0, helloThere)]))
      (fun t => decide (t.err = .ok ∧
        (let u : State := { t with args := #v[0x300, 0x100, 0x200, 15, 15, 15, 0x400, 0] }
        u.dmem = t.dmem ∧ slotAddr u 1 = 0x100 ∧ slotAddr u 2 = 0x200 ∧ slotAddr u 0 = 0x300 ∧
          (∀ i, slotLen u i = t.res[0].toNat) ∧ u.args[6].toNat + 11 ≤ Config.dmemSize ∧
          ∀ i, ¬ overlap u.args[6].toNat 11 (slotAddr u i) (slotLen u 0)))) = some true := by decide +kernel

/-- The cyclic order of the same blocks. -/
theorem witness_DecodeIsOrderIndependent :
    ∃ perm : Equiv.Perm (Fin 3), perm 0 = 2 ∧
      (∀ i, slotAddr (machine #v[0x300, 0x100, 0x200, 15, 15, 15, 0x400, 0] []) i =
        slotAddr (machine #v[0x100, 0x200, 0x300, 15, 15, 15, 0x400, 0] []) (perm i)) ∧
      ∀ i, slotLen (machine #v[0x300, 0x100, 0x200, 15, 15, 15, 0x400, 0] []) i =
        slotLen (machine #v[0x100, 0x200, 0x300, 15, 15, 15, 0x400, 0] []) (perm i) := by decide +kernel

/-- Each offset in an idle machine and, for ID and CONFIG, in a busy one. -/
theorem witness_IdAndConfigAreHardwired :
    nextTurn (hostRuns [.rd .word 0]) = .host ∧ nextTurn (hostWaits 0x09 [.rd .word 4]) = .host ∧
      (0xFFFFF000 : Word).toNat % 4096 = 0 ∧ (0x1004 : Word).toNat % 4096 = 4 := by decide

theorem witness_CtrlHoldsOnlyIe :
    nextTurn (hostRuns [.wr .word 8 1]) = .host ∧ (hostRuns [.wr .word 8 1]).eng = .idle ∧ (8 : Word).toNat % 4096 = 8 ∧
      (1 : Word).getLsbD 1 = false ∧ (3 : Word).getLsbD 1 = true := by decide

theorem witness_StatusReadsAndClears :
    nextTurn (hostWaits 0x09 [.wr .word 0x00C 2]) = .host ∧ (0x00C : Word).toNat % 4096 = 0x00C ∧
      (hostWaits 0x09 [.wr .word 0x00C 2]).eng ≠ .idle ∧ Inv (hostWaits 0x09 [.wr .word 0x00C 2]) ∧
      nextTurn { hostRuns [.wr .word 0x00C 2] with done := true, err := .range } = .host :=
  ⟨by decide, by decide, by decide, ⟨by decide, by decide, by decide, by decide, by decide⟩, by decide⟩

/-- The first and the last ARG offset. -/
theorem witness_ArgsReadAndWrite :
    nextTurn (hostRuns [.wr .word 0x020 1]) = .host ∧ (hostRuns [.wr .word 0x020 1]).eng = .idle ∧
      (0x020 : Word).toNat % 4096 = 0x020 + 4 * (0 : Fin 8).val ∧ (0x03C : Word).toNat % 4096 = 0x020 + 4 * (7 : Fin 8).val ∧
      shows (exec .decode State.reset) (·.args) = some State.reset.args := by decide

/-- The first and the last RES offset, and CMD. -/
theorem witness_ResIsReadOnlyAndCmdReadsZero :
    nextTurn (hostRuns [.rd .word 0x040]) = .host ∧ (hostRuns [.rd .word 0x040]).eng = .idle ∧
      (0x040 : Word).toNat % 4096 = 0x040 + 4 * (0 : Fin 4).val ∧ (0x04C : Word).toNat % 4096 = 0x040 + 4 * (3 : Fin 4).val ∧
      (0x010 : Word).toNat % 4096 = 0x010 := by decide

theorem witness_DaddrReadsAndWrites :
    nextTurn (hostRuns [.wr .word 0x050 0xFFFFFFFF]) = .host ∧ (hostRuns [.wr .word 0x050 0xFFFFFFFF]).eng = .idle ∧
      (0x050 : Word).toNat % 4096 = 0x050 := by decide

/-- The last byte of DMEM, the first address beyond it, and the wrap of DADDR. -/
theorem witness_DdataIsAPortOntoDmem :
    shows (step { hostRuns [.wr .word 0x054 0xFFFFFF21] with daddr := 0xFFFF }) (fun t => (t.daddr, t.dmem)) =
        some (0x10000, [(0xFFFF, 0x21)]) ∧
      shows (step { hostRuns [.wr .word 0x054 0x21] with daddr := 0x10000 }) (fun t => (t.daddr, t.dmem)) =
        some (0x10001, []) ∧
      shows (step { hostRuns [.rd .word 0x054] with daddr := 0xFFFFFFFF }) (fun t => (t.daddr, t.reads)) =
        some (0, [0]) := by decide

/-- The ends of the reserved ranges and a misaligned offset. -/
theorem witness_ReservedOffsetsReadZero :
    nextTurn (hostRuns [.rd .word 0x014]) = .host ∧ nextTurn (hostWaits 0x09 [.rd .word 0x01C]) = .host ∧
      (0x058 ≤ (0xFFC : Word).toNat % 4096) ∧ (0x021 : Word).toNat % 4096 % 4 ≠ 0 ∧
      shows (step (hostRuns [.rd .word 0x01C])) (·.reads) = some [0] ∧
      shows (step (hostWaits 0x09 [.rd .word 0x021])) (·.reads) = some [0] := by decide

theorem witness_OnlyNarrowAccessesStop :
    nextTurn (hostRuns [.wr .half 0x020 1]) = .host ∧ (hostRuns [.wr .half 0x020 1]).bus = [.wr .half 0x020 1] ∧
      ¬ (HostOp.wr .half 0x020 1).WellFormed := by decide

/-- The first and the last held offset of each range. -/
theorem witness_BusyHoldsTheBus :
    (hostWaits 9 [.wr .word 0x054 1]).eng = .busy 9 ∧ nextTurn (hostWaits 9 [.wr .word 0x054 1]) = .host ∧
      (0x054 : Word).toNat % 4096 % 4 = 0 ∧ (0x054 : Word).toNat % 4096 ≤ 0x054 ∧ 0x020 ≤ (0x020 : Word).toNat % 4096 ∧
      (0x008 : Word).toNat % 4096 = 0x008 ∧ (0x010 : Word).toNat % 4096 = 0x010 := by decide

theorem witness_HostCannotDisturbACommand :
    Inv (hostWaits 9 [.wr .word 0x00C 2]) ∧ (hostWaits 9 [.wr .word 0x00C 2]).eng = .busy 9 ∧
      nextTurn (hostWaits 9 [.wr .word 0x00C 2]) = .host ∧
      shows (step (hostWaits 9 [.wr .word 0x00C 2])) (·.bus) = some [] :=
  ⟨⟨by decide, by decide, by decide, by decide, by decide⟩, by decide, by decide, by decide⟩

theorem witness_WaitPollsBusy :
    nextTurn (hostRuns [.wait]) = .host ∧ (hostRuns [.wait]).eng = .idle ∧ nextTurn (hostWaits 9 [.wait]) = .host ∧
      (hostWaits 9 [.wait]).eng ≠ .idle := by decide

/-- A RES read that waits two turns for a CKSUM (F8). -/
theorem witness_HeldReadReturnsTheResult :
    (let s : State :=
      { ((machine #v[0x10000, 0, 0, 0, 0, 0, 0, 0] []).issue 3) with
        bus := [.rd .word 0x040], schedule := [.host, .host, .engine, .host] }
    s.eng = .busy 3 ∧ decode 3 = .ok .cksum ∧ (shows (exec .cksum s) (·.res[0])) = some 1 ∧
      (0x040 : Word).toNat % 4096 = 0x040 + 4 * (0 : Fin 4).val ∧
      s.schedule = List.replicate 2 .host ++ .engine :: .host :: []) := by decide

theorem witness_CommandPseudoIssuesWithOperands :
    (hostRuns (assembleProgram [.command .decode [0, 1, 2, 3, 4, 5, 6]])).eng = .idle ∧
      (hostRuns []).schedule = [] ∧ (HostPseudo.command .decode [0, 1, 2, 3, 4, 5, 6]).WellFormed ∧
      (HostPseudo.command .nop []).WellFormed := by decide

/-- Two bytes that end at DMEM_SIZE. -/
theorem witness_PokeThenPeekReturnsTheBytes :
    (hostRuns (assembleProgram [.poke 0xFFFE [1, 2], .peek 0xFFFE 2])).eng = .idle ∧
      (hostRuns []).schedule = [] ∧ (0xFFFE : Word).toNat + [(1 : Byte), 2].length ≤ Config.dmemSize := by decide

theorem witness_InterruptFollowsCompletion :
    shows (exec .nop { State.reset with ie := true }) (·.irq) = some true ∧ (2 : Word).getLsbD 1 = true ∧
      (0 : Word).getLsbD 0 = false ∧ (0 : Word).getLsbD 1 = false := by decide

theorem witness_SoftReset :
    nextTurn (hostRuns [.wr .word 8 3]) = .host ∧ (hostRuns [.wr .word 8 3]).eng = .idle ∧ (3 : Word).getLsbD 1 = true ∧
      nextTurn (hostWaits 9 [.wr .word 8 2]) = .host ∧ (hostWaits 9 [.wr .word 8 2]).eng ≠ .idle ∧
      (1 : Word).getLsbD 1 = false := by decide

theorem witness_HardwareResetWhileIdle :
    nextTurn { State.reset with schedule := [.rst] } = .rst ∧ ({ State.reset with schedule := [.rst] } : State).eng = .idle := by
  decide

/-- An ENCODE aborted in the middle of its work, one that would have failed, and an illegal word. -/
theorem witness_HardwareResetAbortsACommand :
    (let s : State := { (machine #v[0, 0, 0x100, 0x200, 0x300, 0, 0, 0] []).issue 9 with schedule := [.rst] }
    nextTurn s = .rst ∧ s.eng = .busy 9 ∧ decode 9 = .ok .encode ∧ (shows (exec .encode s) (·.err)) = some .ok ∧
      (commandEffect .encode s).writes.map (fun d => (d.1, d.2.length)) = [(0x100, 9), (0x200, 9), (0x300, 9)]) ∧
    shows (exec .encode (machine #v[0, 0, 0x100, 0x100, 0x300, 0, 0, 0] [])) (·.err) = some .overlap ∧
    ¬ LegalWord 0x0000000B ∧ nextTurn { State.reset.issue 0x0B with schedule := [.rst] } = .rst := by decide +kernel

theorem witness_StepKeepsTheInvariant :
    Inv (hostWaits 9 [.wait]) ∧ shows (step (hostWaits 9 [.wait])) (·.bus) = some [.wait] :=
  ⟨⟨by decide, by decide, by decide, by decide, by decide⟩, by decide⟩

/-- DONE set by a completion; cleared by issue, by W1C, by the soft reset and by `rst`; BUSY set by issue. -/
theorem witness_WhoChangesDoneAndBusy :
    (State.reset.issue 0).done = false ∧ shows (step (State.reset.issue 0)) (·.done) = some true ∧
      shows (step { hostRuns [.wr .word 0x010 0] with done := true }) (·.done) = some false ∧
      shows (step { hostRuns [.wr .word 0x00C 2] with done := true }) (·.done) = some false ∧
      shows (step { hostRuns [.wr .word 0x008 2] with done := true }) (·.done) = some false ∧
      shows (step { State.reset with done := true, schedule := [.rst] }) (·.done) = some false ∧
      shows (step (hostRuns [.wr .word 0x010 7])) (·.eng) = some (.busy 7) := by decide

/-- An ARG write, `rst`, the soft reset and a completion, each of which changes ARG or RES. -/
theorem witness_WhoWritesArgAndRes :
    shows (step (hostRuns [.wr .word 0x03C 5])) (·.args[7]) = some 5 ∧ (hostRuns []).args[7] = 0 ∧
      shows (step { State.reset with args := #v[1, 0, 0, 0, 0, 0, 0, 0], schedule := [.rst] }) (·.args[0]) = some 0 ∧
      ResetsNext { State.reset with schedule := [.rst] } ∧ ResetsNext (hostRuns [.wr .word 0x008 2]) ∧
      shows (step { hostRuns [.wr .word 0x008 2] with args := #v[1, 0, 0, 0, 0, 0, 0, 0], res := #v[0, 0, 0, 1] })
        (fun t => (t.args[0], t.res[3])) = some (0, 0) ∧
      shows (step ((machine #v[0, 0, 0, 0, 0, 0, 0, 0] []).issue 3)) (·.res[0]) = some 1 :=
  ⟨by decide, by decide, by decide, .inl (by decide), .inr ⟨by decide, by decide, 0x008, 2, [], by decide⟩, by decide,
    by decide⟩

/-- One step of each kind that changes a byte of DMEM: a completion, a DDATA write. -/
theorem witness_WhoWritesDmem :
    shows (step ((machine #v[0, 5, 0, 0, 0, 0, 0, 0] [(3, [9])]).issue 1)) (·.byteAt 3) = some 5 ∧
      (machine #v[0, 5, 0, 0, 0, 0, 0, 0] [(3, [9])]).byteAt 3 = 9 ∧
      shows (step { hostRuns [.wr .word 0x054 1] with dmem := [(0, 9)] }) (·.byteAt 0) = some 1 := by decide

end Sys2Proof.Tests.Slice0
end

