-- ==== Sys2Proof/Proofs/Scope.lean ====
section
/-! PROOFS. The big-endian codec (00_scope.md R10), byte by byte and as a sum; its length and its two round trips are laws
of Sys2Proof/Laws/Bytes.lean. -/

namespace Sys2Proof.Machine

/-- R10's byte formula. -/
theorem beBytes_getElem? (n v i : Nat) (h : i < n) :
    (beBytes n v)[i]? = some (BitVec.ofNat 8 (v >>> (8 * (n - 1 - i)))) := by
  induction n generalizing i with
  | zero => omega
  | succ n ih =>
    cases i with
    | zero => simp [beBytes]
    | succ i =>
      rw [beBytes, List.getElem?_cons_succ, ih i (by omega), show n - 1 - i = n + 1 - 1 - (i + 1) by omega]

/-- R10's value formula. -/
theorem beValue_eq_sum (s : List Byte) :
    beValue s = ((List.range s.length).map fun i => (s[i]?.getD 0).toNat * 2 ^ (8 * (s.length - 1 - i))).sum := by
  induction s with
  | nil => rfl
  | cons b rest ih =>
    have hexp (i : Nat) : rest.length - 1 - i = rest.length - (i + 1) := by omega
    rw [beValue, ih, List.length_cons, List.range_succ_eq_map, List.map_cons, List.sum_cons, List.map_map]
    simp [Function.comp_def, hexp]

/-- Settles O29: the byte and value formulas of R10, and the two round trips. -/
theorem bigEndianCodecRoundTrips : Obligations.BigEndianCodecRoundTrips :=
  ⟨beBytes_length, beBytes_getElem?, fun _ _ => beValue_beBytes_of_lt, fun s => beBytes_beValue_of_length s rfl,
    beValue_eq_sum⟩

end Sys2Proof.Machine
end

