-- ==== Sys2Proof/Proofs/State.lean ====
section
/-! PROOFS. The state and its registers (10_state.md): what a read and a write of each register do, what a step can change
(R20, R41), the invariant, reset values, and DMEM through DDATA. -/

namespace Sys2Proof.Machine

/-! ### Reads and writes by register (R21, R22, R31-R37) -/

/-- What a host write of `v` does at each register. -/
def State.writeAt (s : State) (v : Word) : Reg → State
  | .id => s
  | .config => s
  | .ctrl => s.writeCtrl v
  | .status => s.writeStatus v
  | .cmd => s.issue v
  | .arg i => { s with args := s.args.set i v }
  | .res _ => s
  | .daddr => { s with daddr := v }
  | .ddata => s.writeDdata v

theorem regAt_of_offset {offset : Word} {r : Reg} (h : offset.toNat % 4096 = regOffset r) : regAt offset = some r :=
  (regAt_eq_some_iff offset r).2 h.symm

theorem writeReg_of_regAt {offset : Word} {r : Reg} (h : regAt offset = some r) (v : Word) (s : State) :
    writeReg offset v s = s.writeAt v r := by
  unfold writeReg
  rw [h]
  cases r <;> rfl

@[simp] theorem regValue_consumed (s : State) (rest : List HostOp) (r : Reg) :
    (consumed s rest).regValue r = s.regValue r := by
  cases r <;> rfl

/-- An access to a register that R241 does not name is performed whatever the engine does. -/
theorem holds_eq_false_of_heldReg {offset : Word} {r : Reg} (hr : regAt offset = some r) (hh : heldReg r = false)
    (s : State) : s.holds offset = false := by
  simp [State.holds, hr, hh]

/-- A performed read of a register other than DDATA: its value, and no other change (20_memory.md R63). -/
theorem step_read_reg {s : State} {offset : Word} {rest : List HostOp} {r : Reg} (hn : nextTurn s = .host)
    (hh : s.holds offset = false) (hr : regAt offset = some r) (hne : r ≠ .ddata)
    (hb : s.bus = .rd .word offset :: rest) :
    step s = .next { popped s with bus := rest, reads := s.reads ++ [s.regValue r] } := by
  rw [step_read hn hb hh, readReg_of_regAt hr hne, regValue_consumed]
  rfl

/-- A performed write of a register. -/
theorem step_write_reg {s : State} {offset v : Word} {rest : List HostOp} {r : Reg} (hn : nextTurn s = .host)
    (hh : s.holds offset = false) (hr : regAt offset = some r) (hb : s.bus = .wr .word offset v :: rest) :
    step s = .next ((consumed s rest).writeAt v r) := by
  rw [step_write hn hb hh, writeReg_of_regAt hr]

/-- Settles O30: neither register holds the bus, and each is a constant. -/
theorem idAndConfigAreHardwired : Obligations.IdAndConfigAreHardwired := by
  intro s offset rest hn
  refine ⟨fun hb ho => ?_, fun hb ho => ?_, fun v he hb ho => ?_⟩
  · have hr := regAt_of_offset (r := .id) ho
    exact step_read_reg hn (holds_eq_false_of_heldReg hr rfl s) hr (by decide) hb
  · have hr := regAt_of_offset (r := .config) ho
    exact step_read_reg hn (holds_eq_false_of_heldReg hr rfl s) hr (by decide) hb
  · rcases ho with ho | ho
    · exact step_write_reg hn (holds_eq_false_of_idle he offset) (regAt_of_offset (r := .id) ho) hb
    · exact step_write_reg hn (holds_eq_false_of_idle he offset) (regAt_of_offset (r := .config) ho) hb

theorem State.ctrlWord_eq (s : State) : s.ctrlWord = if s.ie then 1 else 0 := by
  unfold State.ctrlWord
  cases s.ie <;> rfl

/-- Settles O31: CTRL's word is its IE, and a write is `writeCtrl`. -/
theorem ctrlHoldsOnlyIe : Obligations.CtrlHoldsOnlyIe := by
  intro s offset rest hn he ho
  have hr : regAt offset = some .ctrl := regAt_of_offset ho
  have hh := holds_eq_false_of_idle he offset
  refine ⟨fun hb => ?_, fun v hb => step_write_reg hn hh hr hb⟩
  rw [step_read_reg hn hh hr (by decide) hb, ← s.ctrlWord_eq]
  rfl

theorem errorCode_lt (e : ErrCode) : (errorCode e).toNat < 8 := by
  cases e <;> decide

/-- Settles O33: STATUS[7:4] is the code of a name. -/
theorem errorCodeNumbers : Obligations.ErrorCodeNumbers := by
  refine ⟨⟨rfl, rfl, rfl, rfl, rfl, rfl, rfl, rfl⟩, fun s => ?_⟩
  have hcode := errorCode_lt s.err
  have hdone : s.done.toNat < 2 := Bool.toNat_lt _
  have hbusy : s.busy.toNat < 2 := Bool.toNat_lt _
  rw [s.statusWord_toNat]
  omega

theorem State.writeStatus_of_done_false {s : State} (h : s.done = false) (v : Word) : s.writeStatus v = s := by
  simp [State.writeStatus, h]

theorem engineConsistent_iff (s : State) :
    EngineConsistent s ↔ ∀ w, s.eng = .busy w → s.done = false ∧ s.lastop = opField w := by
  cases h : s.eng <;> simp [EngineConsistent, h]

/-- Settles O32: STATUS never holds the bus, its fields are those of `statusWord`, and the invariant makes a write while
BUSY find DONE 0. -/
theorem statusReadsAndClears : Obligations.StatusReadsAndClears := by
  intro s offset rest hn ho
  have hr : regAt offset = some .status := regAt_of_offset ho
  have hh := holds_eq_false_of_heldReg hr rfl s
  have hwrite {v : Word} (hb : s.bus = .wr .word offset v :: rest) := step_write_reg hn hh hr hb
  refine ⟨fun hb => ?_, fun v hb => ?_, fun hinv hbusy => ?_⟩
  · obtain ⟨h0, hfields⟩ := s.statusWord_fields
    exact ⟨s.statusWord, step_read_reg hn hh hr (by decide) hb, by rw [h0, s.busy_iff], hfields⟩
  · rw [hwrite hb]
    simp only [State.writeAt, State.writeStatus, Bool.and_eq_true, consumed_done]
    split <;> rfl
  · obtain ⟨-, herr, -, heng⟩ := hinv
    cases he : s.eng with
    | idle => exact absurd he hbusy
    | busy w =>
      obtain ⟨hdone, -⟩ := (engineConsistent_iff s).1 heng w he
      refine ⟨hdone, herr hdone, fun v hb => ?_⟩
      rw [hwrite hb, State.writeAt, State.writeStatus_of_done_false (s := consumed s rest) hdone]
      rfl

/-- Settles O34: a write is `Vector.set`, and a completion leaves ARG alone. -/
theorem argsReadAndWrite : Obligations.ArgsReadAndWrite := by
  refine ⟨fun s offset rest i hn he ho => ?_, fun i s t h => ?_, fun i => ?_⟩
  · have hr : regAt offset = some (.arg i) := regAt_of_offset ho
    have hh := holds_eq_false_of_idle he offset
    refine ⟨step_read_reg hn hh hr (by simp), fun v hb => ⟨_, step_write_reg hn hh hr hb, rfl, ?_, fun j hj => ?_⟩⟩
    · simp [State.writeAt]
    · have hne : (i : Nat) ≠ j := fun h => hj (Fin.ext h.symm)
      simp [State.writeAt, hne]
  · rw [(exec_next_iff i s t).1 h, State.complete_args]
  · simp [State.reset]

/-- Settles O35: no write of RES has an effect, and CMD has no value. -/
theorem resIsReadOnlyAndCmdReadsZero : Obligations.ResIsReadOnlyAndCmdReadsZero := by
  intro s offset rest hn he
  have hh := holds_eq_false_of_idle he offset
  refine ⟨fun i ho => ?_, fun ho => ?_⟩
  · have hr : regAt offset = some (.res i) := regAt_of_offset ho
    exact ⟨step_read_reg hn hh hr (by simp), fun v => step_write_reg hn hh hr⟩
  · exact step_read_reg hn hh (regAt_of_offset (r := .cmd) ho) (by decide)

/-- Settles O36: DADDR is read and written whole. -/
theorem daddrReadsAndWrites : Obligations.DaddrReadsAndWrites := by
  intro s offset rest hn he ho
  have hr : regAt offset = some .daddr := regAt_of_offset ho
  have hh := holds_eq_false_of_idle he offset
  exact ⟨step_read_reg hn hh hr (by decide), fun v => step_write_reg hn hh hr⟩

/-! ### DMEM through DDATA (R36, R37) -/

/-- A performed read of DDATA: the byte at DADDR, and the increment. -/
theorem step_read_ddata {s : State} {offset : Word} {rest : List HostOp} (hn : nextTurn s = .host) (he : s.eng = .idle)
    (hr : regAt offset = some .ddata) (hb : s.bus = .rd .word offset :: rest) :
    step s = .next { popped s with bus := rest, daddr := s.daddr + 1, reads := s.reads ++ [s.ddataValue] } := by
  rw [step_read hn hb (holds_eq_false_of_idle he offset), readReg_ddata hr]
  rfl

/-- A performed write of DDATA: the byte at DADDR, in range, and the increment. -/
theorem step_write_ddata {s : State} {offset v : Word} {rest : List HostOp} (hn : nextTurn s = .host) (he : s.eng = .idle)
    (hr : regAt offset = some .ddata) (hb : s.bus = .wr .word offset v :: rest) :
    step s = .next { popped s with
      bus := rest
      daddr := s.daddr + 1
      dmem := if s.daddr.toNat < Config.dmemSize then s.dmem.write s.daddr.toNat (v.setWidth 8) else s.dmem } := by
  rw [step_write_reg hn (holds_eq_false_of_idle he offset) hr hb, State.writeAt, State.writeDdata_eq]
  rfl

/-- The increment of R36 as R36 writes it. -/
theorem ofNat_succ_mod (a : Word) : BitVec.ofNat 32 ((a.toNat + 1) % 2 ^ 32) = a + 1 := by
  apply BitVec.eq_of_toNat_eq
  simp

/-- Settles O37: a read and a write of DDATA, DADDR in range or not. -/
theorem ddataIsAPortOntoDmem : Obligations.DdataIsAPortOntoDmem := by
  intro s offset rest hn he ho a next
  have hr : regAt offset = some .ddata := regAt_of_offset ho
  have hnext : next = s.daddr + 1 := ofNat_succ_mod s.daddr
  rw [hnext]
  refine ⟨fun hb => step_read_ddata hn he hr hb, fun v hb => ⟨_, step_write_ddata hn he hr hb, rfl, ?_⟩⟩
  split
  case isTrue hlt =>
    have hread (x : Nat) :
        (if a < Config.dmemSize then s.dmem.write a (v.setWidth 8) else s.dmem).read x =
          if x = a then v.setWidth 8 else s.byteAt x := by
      rw [if_pos (c := a < Config.dmemSize) hlt]
      exact s.dmem.read_write a x _
    refine ⟨?_, fun x hx => ?_⟩
    · exact ((hread a).trans (if_pos rfl)).trans (BitVec.setWidth_eq_extractLsb' (by decide))
    · exact (hread x).trans (if_neg (by omega))
  case isFalse hge =>
    exact if_neg hge

/-! ### `poke` and `peek` (30_encoding.md R77) -/

theorem regAt_regOffset (r : Reg) : regAt (BitVec.ofNat 32 (regOffset r)) = some r := by
  rw [regAt_eq_some_iff, BitVec.toNat_ofNat]
  cases r <;> simp only [regOffset] <;> omega

theorem popped_eq_self {s : State} (h : s.schedule = []) : popped s = s := by
  obtain ⟨⟩ := s
  subst h
  rfl

theorem add_one_add_ofNat (a : Word) (n : Nat) : a + 1 + BitVec.ofNat 32 n = a + BitVec.ofNat 32 (n + 1) := by
  apply BitVec.eq_of_toNat_eq
  simp
  omega

theorem toNat_add_one {a : Word} (h : a.toNat < Config.dmemSize) : (a + 1).toNat = a.toNat + 1 := by
  simp at h
  simp
  omega

/-- The state with the fields of the DDATA port, and the model's record of its accesses, set. -/
def State.port (s : State) (a : Word) (m : Memory) (ops : List HostOp) (vals : List Word) : State :=
  { s with daddr := a, dmem := m, bus := ops, reads := vals }

theorem State.port_self (s : State) : s.port s.daddr s.dmem s.bus s.reads = s := rfl

section Port
variable {s : State} (he : s.eng = .idle) (hs : s.schedule = [])
include he hs

theorem nextTurn_port (a : Word) (m : Memory) (ops : List HostOp) (vals : List Word) :
    nextTurn (s.port a m ops vals) = .host :=
  nextTurn_of_idle (s := s.port a m ops vals) he hs

theorem step_port_setDaddr (a v : Word) (m : Memory) (ops : List HostOp) (vals : List Word) :
    step (s.port a m (wrReg .daddr v :: ops) vals) = .next (s.port v m ops vals) := by
  have hidle : (s.port a m (wrReg .daddr v :: ops) vals).eng = .idle := he
  have hsched : (s.port a m (wrReg .daddr v :: ops) vals).schedule = [] := hs
  rw [step_write_reg (nextTurn_port he hs ..) (holds_eq_false_of_idle hidle _) (regAt_regOffset .daddr) rfl, consumed,
    popped_eq_self hsched]
  rfl

theorem step_port_write {a : Word} (ha : a.toNat < Config.dmemSize) (b : Byte) (m : Memory) (ops : List HostOp)
    (vals : List Word) :
    step (s.port a m (wrReg .ddata (b.setWidth 32) :: ops) vals) =
      .next (s.port (a + 1) (m.write a.toNat b) ops vals) := by
  have hidle : (s.port a m (wrReg .ddata (b.setWidth 32) :: ops) vals).eng = .idle := he
  have hsched : (s.port a m (wrReg .ddata (b.setWidth 32) :: ops) vals).schedule = [] := hs
  have hbyte : (b.setWidth 32).setWidth 8 = b := by
    rw [BitVec.setWidth_setWidth_of_le b (by decide), BitVec.setWidth_eq]
  rw [step_write_ddata (nextTurn_port he hs ..) hidle (regAt_regOffset .ddata) rfl, popped_eq_self hsched, hbyte]
  exact congrArg (fun m => Host.Outcome.next (s.port (a + 1) m ops vals)) (if_pos ha)

theorem step_port_read {a : Word} (ha : a.toNat < Config.dmemSize) (m : Memory) (ops : List HostOp) (vals : List Word) :
    step (s.port a m (rdReg .ddata :: ops) vals) =
      .next (s.port (a + 1) m ops (vals ++ [(m.read a.toNat).setWidth 32])) := by
  have hidle : (s.port a m (rdReg .ddata :: ops) vals).eng = .idle := he
  have hsched : (s.port a m (rdReg .ddata :: ops) vals).schedule = [] := hs
  have hvalue : (s.port a m (rdReg .ddata :: ops) vals).ddataValue = (m.read a.toNat).setWidth 32 := if_pos ha
  rw [step_read_ddata (nextTurn_port he hs ..) hidle (regAt_regOffset .ddata) rfl, popped_eq_self hsched, hvalue]
  rfl

/-- The DDATA writes of a `poke`: the bytes stand from DADDR on, and DADDR one past them. -/
theorem run_port_writes (bytes : List Byte) (a : Word) (m : Memory) (ops : List HostOp) (vals : List Word)
    (hin : a.toNat + bytes.length ≤ Config.dmemSize) :
    Sys2Proof.core.run bytes.length (s.port a m (bytes.map (fun b => wrReg .ddata (b.setWidth 32)) ++ ops) vals) =
      .next (s.port (a + BitVec.ofNat 32 bytes.length) (m.writeBytes a.toNat bytes) ops vals) := by
  induction bytes generalizing a m with
  | nil => simp [Host.Core.run, Memory.writeBytes]
  | cons b bytes ih =>
    rw [List.length_cons] at hin
    have ha : a.toNat < Config.dmemSize := by omega
    have hrun := ih (a + 1) (m.write a.toNat b) (by rw [toNat_add_one ha]; omega)
    rw [add_one_add_ofNat, toNat_add_one ha] at hrun
    exact (run_succ (step_port_write he hs ha b m _ vals)).trans hrun

/-- The DDATA reads of a `peek`: the bytes from DADDR on, and DADDR one past them. -/
theorem run_port_reads (n : Nat) (a : Word) (m : Memory) (ops : List HostOp) (vals : List Word)
    (hin : a.toNat + n ≤ Config.dmemSize) :
    Sys2Proof.core.run n (s.port a m (List.replicate n (rdReg .ddata) ++ ops) vals) =
      .next (s.port (a + BitVec.ofNat 32 n) m ops (vals ++ (m.readBytes a.toNat n).map (·.setWidth 32))) := by
  induction n generalizing a vals with
  | zero => simp [Host.Core.run, Memory.readBytes]
  | succ n ih =>
    have ha : a.toNat < Config.dmemSize := by omega
    have hrun := ih (a + 1) (vals ++ [(m.read a.toNat).setWidth 32]) (by rw [toNat_add_one ha]; omega)
    rw [add_one_add_ofNat, toNat_add_one ha, List.append_assoc] at hrun
    exact (run_succ (step_port_read he hs ha m _ vals)).trans hrun

/-- `poke` of a region of DMEM, the rest of the host's program following. -/
theorem run_port_poke (bytes : List Byte) (a addr : Word) (m : Memory) (ops : List HostOp) (vals : List Word)
    (hin : addr.toNat + bytes.length ≤ Config.dmemSize) :
    Sys2Proof.core.run (bytes.length + 1) (s.port a m (pokeBytes addr bytes ++ ops) vals) =
      .next (s.port (addr + BitVec.ofNat 32 bytes.length) (m.writeBytes addr.toNat bytes) ops vals) :=
  (run_succ (step_port_setDaddr he hs a addr m _ vals)).trans (run_port_writes he hs bytes addr m ops vals hin)

/-- `peek` of a region of DMEM, the rest of the host's program following. -/
theorem run_port_peek (n : Nat) (a addr : Word) (m : Memory) (ops : List HostOp) (vals : List Word)
    (hin : addr.toNat + n ≤ Config.dmemSize) :
    Sys2Proof.core.run (n + 1) (s.port a m (expandPseudo (.peek addr n) ++ ops) vals) =
      .next (s.port (addr + BitVec.ofNat 32 n) m ops (vals ++ (m.readBytes addr.toNat n).map (·.setWidth 32))) :=
  (run_succ (step_port_setDaddr he hs a addr m _ vals)).trans (run_port_reads he hs n addr m ops vals hin)

end Port

/-- Settles O45: the run of the `poke`, then that of the `peek`, which reads what the `poke` stored. -/
theorem pokeThenPeekReturnsTheBytes : Obligations.PokeThenPeekReturnsTheBytes := by
  intro s addr bytes he hs hin hb
  have hpoke := run_port_poke he hs bytes s.daddr addr s.dmem (expandPseudo (.peek addr bytes.length) ++ []) s.reads hin
  have hpeek := run_port_peek he hs bytes.length (addr + BitVec.ofNat 32 bytes.length) addr
    (s.dmem.writeBytes addr.toNat bytes) [] s.reads hin
  have hbus : s.bus = pokeBytes addr bytes ++ (expandPseudo (.peek addr bytes.length) ++ []) := hb
  have hend : addr + BitVec.ofNat 32 bytes.length = BitVec.ofNat 32 (addr.toNat + bytes.length) := by
    rw [BitVec.ofNat_add, BitVec.ofNat_toNat, BitVec.setWidth_eq]
  rw [← hbus, s.port_self] at hpoke
  have hrun := (run_add (bytes.length + 1) hpoke).trans hpeek
  rw [Memory.readBytes_writeBytes_same, hend, show bytes.length + 1 + (bytes.length + 1) = 2 * bytes.length + 2 by omega]
    at hrun
  exact ⟨_, hrun, rfl, Memory.readBytes_writeBytes_same _ _ _, fun x => s.dmem.read_writeBytes_outside _ x bytes⟩

/-! ### Issue and completion (R25, R38) -/

/-- Settles O6: a command completes with its effect. -/
theorem everyCommandCompletes : Obligations.EveryCommandCompletes :=
  fun i s => ⟨_, _, exec_eq_complete i s, completedWith_complete s _⟩

theorem completeWord_of_decode {w : Word} {i : Instr} (h : decode w = .ok i) (s : State) :
    completeWord w s = exec i s := by
  rw [completeWord, h]

theorem nextTurn_latchNext (s : State) (w : Word) : nextTurn (latchNext s w) = .engine := rfl

theorem popped_latchNext (s : State) (w : Word) : popped (latchNext s w) = s.issue w := rfl

/-- Settles O4: the engine's turn is the completion of the latched word, and `withFetchWord` names that turn first. -/
theorem stepRunsTheLatchedCommand : Obligations.StepRunsTheLatchedCommand := by
  refine ⟨fun s w i he hd hn => ?_, fun s w i hd => ?_⟩
  · rw [step_engine hn he, completeWord_of_decode hd]
  · rw [State.withFetchWord, step_engine (nextTurn_latchNext s _) rfl, completeWord_of_decode hd, popped_latchNext]

theorem decodeOpcode_assigned {op : Byte} {i : Instr} (h : decodeOpcode op = .ok i) : op.toNat ∈ assignedOpcodes := by
  unfold decodeOpcode at h
  split at h
  case h_11 => cases h
  all_goals simp [assignedOpcodes, *]

theorem opField_toNat (w : Word) : (opField w).toNat = w.toNat % 256 := by
  simp [opField]

theorem rsvField_toNat (w : Word) : (rsvField w).toNat = w.toNat / 256 := by
  simp [rsvField, Nat.shiftRight_eq_div_pow]
  omega

/-- Only legal words decode (30_encoding.md R71). -/
theorem legalWord_of_decode {w : Word} {i : Instr} (h : decode w = .ok i) : LegalWord w := by
  unfold decode at h
  split at h
  case isTrue hrsv =>
    exact ⟨(rsvField_toNat w).symm.trans (congrArg BitVec.toNat hrsv), opField_toNat w ▸ decodeOpcode_assigned h⟩
  case isFalse => cases h

theorem wordEffect_of_illegal {w : Word} (h : ¬ LegalWord w) (s : State) : wordEffect w s = raiseError .illegalCmd := by
  unfold wordEffect
  cases hd : decode w with
  | ok i => exact absurd (legalWord_of_decode hd) h
  | error e => rfl

/-- With the engine idle, the host moves unless the schedule names another. -/
theorem nextTurn_of_idle_head {s : State} (he : s.eng = .idle) (hs : s.schedule.head?.getD .host = .host) :
    nextTurn s = .host := by
  have hdefault : defaultTurn s = .host := by simp [defaultTurn, s.busy_eq_false_iff.2 he]
  rw [nextTurn, atOnce_eq_self (illegalLatched_of_idle he), hdefault, hs]

/-- STATUS once a word has completed as illegal (10_state.md R34, 60_exceptions.md R206). -/
theorem statusWord_of_illegal {s : State} {w : Word} (he : s.eng = .idle) (hd : s.done = true) (herr : s.err = .illegalCmd)
    (hl : s.lastop = opField w) : s.statusWord = BitVec.ofNat 32 (2 + 16 * 4 + 256 * (w.toNat % 256)) := by
  apply BitVec.eq_of_toNat_eq
  rw [s.statusWord_toNat, hl, opField_toNat, herr, hd, s.busy_eq_false_iff.2 he, BitVec.toNat_ofNat]
  simp [errorCode]
  omega

/-- The issue of an illegal word and its completion, with no turn of `rst` between (30_encoding.md R71; log 16). -/
theorem run_illegalWrite {s : State} {offset w : Word} {ops : List HostOp} (he : s.eng = .idle) (hl : ¬ LegalWord w)
    (hn : nextTurn s = .host) (hs : s.schedule.tail.head? ≠ some .rst) (hr : regAt offset = some .cmd)
    (hb : s.bus = .wr .word offset w :: ops) :
    Sys2Proof.core.run 2 s = .next ((popped ((consumed s ops).issue w)).complete (raiseError .illegalCmd)) := by
  have hissue : step s = .next ((consumed s ops).issue w) := step_write_reg hn (holds_eq_false_of_idle he _) hr hb
  have hturn : nextTurn ((consumed s ops).issue w) = .engine := nextTurn_of_illegal rfl hl hs
  have hcomplete := (step_engine hturn rfl).trans (completeWord_eq w _)
  rw [wordEffect_of_illegal hl] at hcomplete
  exact (run_succ hissue).trans (run_succ hcomplete)

/-- Settles O56: the issue, the completion and the read, one step each. -/
theorem illegalWordCompletesAtOnce : Obligations.IllegalWordCompletesAtOnce := by
  intro s cmdOffset statusOffset w rest he hl hc hst hb hs
  obtain ⟨hfirst, hsecond, hthird⟩ : s.schedule.head?.getD .host = .host ∧ s.schedule.tail.head? ≠ some .rst ∧
      s.schedule.tail.tail.head?.getD .host = .host := by
    rcases hs with hs | ⟨t, turns, ht, hs⟩
    · simp [hs]
    · simp [hs, ht]
  have hdrop : s.schedule.tail.tail.tail = s.schedule.drop 3 := by simp [← List.drop_one, List.drop_drop]
  have hcmd : regAt cmdOffset = some .cmd := regAt_of_offset hc
  have hstatus : regAt statusOffset = some .status := regAt_of_offset hst
  have hrun := run_illegalWrite he hl (nextTurn_of_idle_head he hfirst) hsecond hcmd hb
  have hread := step_read_reg
    (s := (popped ((consumed s (.rd .word statusOffset :: rest)).issue w)).complete (raiseError .illegalCmd))
    (nextTurn_of_idle_head rfl hthird) (holds_eq_false_of_idle rfl _) hstatus (by decide) rfl
  rw [State.regValue, statusWord_of_illegal (w := w) rfl rfl rfl rfl] at hread
  rw [← hdrop]
  exact (run_add 1 hrun).trans (run_succ hread)

/-! ### Reset (R42) -/

/-- Every register, field and the engine has its value of R42. -/
structure AtReset (u : State) : Prop where
  ie : u.ie = false
  done : u.done = false
  err : u.err = .ok
  lastop : u.lastop = 0
  args : u.args = State.reset.args
  res : u.res = State.reset.res
  daddr : u.daddr = 0
  eng : u.eng = .idle

theorem atReset_reset : AtReset State.reset := ⟨rfl, rfl, rfl, rfl, rfl, rfl, rfl, rfl⟩

theorem atReset_resetRegisters (s : State) : AtReset s.resetRegisters := ⟨rfl, rfl, rfl, rfl, rfl, rfl, rfl, rfl⟩

theorem State.hardwareReset_of_idle {s : State} (h : s.eng = .idle) : s.hardwareReset = s.resetRegisters := by
  rw [State.hardwareReset, h]

theorem State.hardwareReset_of_busy {s : State} {w : Word} (h : s.eng = .busy w) :
    s.hardwareReset = { s.resetRegisters with dmem := abortedMemory w s, draws := s.draws + 1 } := by
  rw [State.hardwareReset, h]

theorem atReset_hardwareReset (s : State) : AtReset s.hardwareReset := by
  cases h : s.eng with
  | idle =>
    rw [State.hardwareReset_of_idle h]
    exact atReset_resetRegisters s
  | busy w =>
    rw [State.hardwareReset_of_busy h]
    exact ⟨rfl, rfl, rfl, rfl, rfl, rfl, rfl, rfl⟩

theorem AtReset.statusWord {u : State} (h : AtReset u) : u.statusWord = 0 := by
  apply BitVec.eq_of_toNat_eq
  rw [u.statusWord_toNat, h.lastop, h.err, h.done, u.busy_eq_false_iff.2 h.eng]
  rfl

/-- Settles O47: each of the three states is `AtReset`. -/
theorem resetValues : Obligations.ResetValues := by
  refine ⟨fun s u hu => ?_, rfl, fun s => ⟨rfl, fun he => ?_⟩⟩
  · have h : AtReset u := by
      rcases hu with rfl | rfl | rfl
      · exact atReset_reset
      · exact atReset_resetRegisters s
      · exact atReset_hardwareReset s
    have hctrl : u.ctrlWord = 0 := by simp [u.ctrlWord_eq, h.ie]
    have hargs (i : Fin 8) : u.args[i] = 0 := by simp [h.args, State.reset]
    have hres (i : Fin 4) : u.res[i] = 0 := by simp [h.res, State.reset]
    have hirq : u.irq = false := by simp [State.irq, h.ie]
    exact ⟨rfl, rfl, hctrl, h.ie, h.statusWord, u.busy_eq_false_iff.2 h.eng, h.done, h.err, h.lastop, hargs, hres, h.daddr,
      h.eng, hirq⟩
  · rw [State.hardwareReset_of_idle he, State.resetRegisters_dmem]

/-! ### What a register write can do -/

/-- The effects a register write can have, each at its register; `none` is the ignored write. -/
inductive WriteEffect (s : State) (v : Word) : Reg → State → Prop where
  | none (r : Reg) : WriteEffect s v r s
  | setIe : WriteEffect s v .ctrl { s with ie := v.getLsbD 0 }
  | softReset (h : v.getLsbD 1 = true) : WriteEffect s v .ctrl s.resetRegisters
  | clearDone (h : v.getLsbD 1 = true) : WriteEffect s v .status { s with done := false, err := .ok }
  | issue : WriteEffect s v .cmd (s.issue v)
  | setArg (i : Fin 8) : WriteEffect s v (.arg i) { s with args := s.args.set i v }
  | setDaddr : WriteEffect s v .daddr { s with daddr := v }
  | store (h : s.daddr.toNat < Config.dmemSize) :
      WriteEffect s v .ddata { s with daddr := s.daddr + 1, dmem := s.dmem.write s.daddr.toNat (v.setWidth 8) }
  | skip : WriteEffect s v .ddata s.advanceDaddr

theorem writeEffect_writeAt (s : State) (v : Word) (r : Reg) : WriteEffect s v r (s.writeAt v r) := by
  cases r with
  | id => exact .none _
  | config => exact .none _
  | res i => exact .none _
  | cmd => exact .issue
  | arg i => exact .setArg i
  | daddr => exact .setDaddr
  | ctrl =>
    rw [State.writeAt, State.writeCtrl]
    split
    case isTrue h => exact .softReset h
    case isFalse => exact .setIe
  | status =>
    rw [State.writeAt, State.writeStatus]
    split
    case isTrue h => exact .clearDone (Bool.and_eq_true_iff.1 h).1
    case isFalse => exact .none _
  | ddata =>
    rw [State.writeAt, State.writeDdata]
    split
    case isTrue h => exact .store h
    case isFalse => exact .skip

/-! ### What a step can change -/

/-- Nothing of the hardware differs but DADDR. -/
structure HardwareSame (s t : State) : Prop where
  ie : t.ie = s.ie
  done : t.done = s.done
  err : t.err = s.err
  lastop : t.lastop = s.lastop
  args : t.args = s.args
  res : t.res = s.res
  eng : t.eng = s.eng
  dmem : t.dmem = s.dmem

/-- Everything a step does to the hardware, by the agent that moves. -/
inductive StepEffect (s t : State) : Prop where
  | quiet (h : HardwareSame s t)
  | reset (hn : nextTurn s = .rst) (hu : AtReset t) (h : t = (popped s).hardwareReset)
  | completion (hn : nextTurn s = .engine) (w : Word) (he : s.eng = .busy w)
      (h : t = (popped s).complete (wordEffect w (popped s)))
  | write (hn : nextTurn s = .host) (offset v : Word) (rest : List HostOp) (r : Reg)
      (hb : s.bus = .wr .word offset v :: rest) (hr : offset.toNat % 4096 = regOffset r)
      (hidle : heldReg r = true → s.eng = .idle) (h : WriteEffect (consumed s rest) v r t)

theorem hardwareSame_popped (s : State) : HardwareSame s (popped s) := ⟨rfl, rfl, rfl, rfl, rfl, rfl, rfl, rfl⟩

theorem hardwareSame_consumed (s : State) (rest : List HostOp) : HardwareSame s (consumed s rest) :=
  ⟨rfl, rfl, rfl, rfl, rfl, rfl, rfl, rfl⟩

/-- A read changes DADDR at most (20_memory.md R63). -/
theorem hardwareSame_readReg (offset : Word) (s : State) (rest : List HostOp) (vals : List Word) :
    HardwareSame s { (readReg offset (consumed s rest)).2 with reads := vals } := by
  rcases readReg_snd offset (consumed s rest) with h | ⟨-, h⟩ <;> rw [h] <;>
    exact ⟨rfl, rfl, rfl, rfl, rfl, rfl, rfl, rfl⟩

theorem stepEffect {s t : State} (h : step s = .next t) : StepEffect s t := by
  rcases step_cases h with ⟨hn, ht⟩ | ⟨hn, ⟨-, rfl⟩ | ⟨w, he, ht⟩⟩ | ⟨hn, hhost⟩
  · exact .reset hn (ht ▸ atReset_hardwareReset _) ht
  · exact .quiet (hardwareSame_popped s)
  · exact .completion hn w he ht
  · rcases hhost with rfl | ⟨op, rest, hb, ⟨-, -, rfl⟩ | ⟨offset, -, -, rfl⟩ | ⟨offset, v, rfl, hh, rfl⟩⟩
    · exact .quiet (hardwareSame_popped s)
    · exact .quiet (hardwareSame_consumed s rest)
    · exact .quiet (hardwareSame_readReg offset s rest _)
    · cases hr : regAt offset with
      | none =>
        rw [writeReg_none hr]
        exact .quiet (hardwareSame_consumed s rest)
      | some r =>
        rw [writeReg_of_regAt hr]
        exact .write hn offset v rest r hb ((regAt_eq_some_iff offset r).1 hr).symm (idle_of_performed hh hr)
          (writeEffect_writeAt _ v r)

/-! ### The invariant -/

theorem HardwareSame.inv {s t : State} (h : HardwareSame s t) (hs : Inv s) : Inv t := by
  obtain ⟨hmem, hok, herr, heng⟩ := hs
  rw [engineConsistent_iff, ← h.eng, ← h.done, ← h.lastop] at heng
  exact ⟨h.dmem ▸ hmem, fun hd => h.err ▸ hok (h.done ▸ hd), h.err ▸ herr, (engineConsistent_iff t).2 heng⟩

/-- With the engine idle, the invariant asks only for DMEM's form and a consistent ERR. -/
theorem inv_of_idle {t : State} (he : t.eng = .idle) (hmem : t.dmem.wf) (hok : t.done = false → t.err = .ok)
    (herr : t.err ≠ .sizeOverflow) : Inv t :=
  ⟨hmem, hok, herr, (engineConsistent_iff t).2 fun w hw => by simp [he] at hw⟩

theorem AtReset.inv {u : State} (h : AtReset u) (hmem : u.dmem.wf) : Inv u :=
  inv_of_idle h.eng hmem (fun _ => h.err) (by simp [h.err])

theorem wf_hardwareReset {s : State} (h : s.dmem.wf) : s.hardwareReset.dmem.wf := by
  cases he : s.eng with
  | idle => exact (State.hardwareReset_of_idle he).symm ▸ h
  | busy w => exact (State.hardwareReset_of_busy he).symm ▸ wf_abortedMemory w s h

theorem inv_complete {s : State} {e : Effect} (hmem : s.dmem.wf) (he : e.Sound) : Inv (s.complete e) :=
  inv_of_idle rfl (Memory.wf_writeAll _ _ hmem he.inMemory) (fun hd => by simp at hd) he.reachable

theorem WriteEffect.inv {s t : State} {v : Word} {r : Reg} (h : WriteEffect s v r t) (hs : Inv s) : Inv t := by
  obtain ⟨hmem, hok, herr, heng⟩ := hs
  cases h with
  | none => exact ⟨hmem, hok, herr, heng⟩
  | setIe => exact ⟨hmem, hok, herr, heng⟩
  | softReset => exact (atReset_resetRegisters s).inv hmem
  | clearDone =>
    rw [engineConsistent_iff] at heng
    exact ⟨hmem, fun _ => rfl, by simp, (engineConsistent_iff _).2 fun w hw => ⟨rfl, (heng w hw).2⟩⟩
  | issue => exact ⟨hmem, fun _ => rfl, by simp, rfl, rfl⟩
  | setArg => exact ⟨hmem, hok, herr, heng⟩
  | setDaddr => exact ⟨hmem, hok, herr, heng⟩
  | store hlt => exact ⟨s.dmem.wf_write _ _ hmem hlt, hok, herr, heng⟩
  | skip => exact ⟨hmem, hok, herr, heng⟩

/-- Settles O51: nothing is listed in DMEM. -/
theorem invariantHoldsAtReset : Obligations.InvariantHoldsAtReset :=
  atReset_reset.inv ⟨.nil, by simp [State.reset]⟩

/-- Settles O52: each of the four things a step can do keeps the invariant. -/
theorem stepKeepsTheInvariant : Obligations.StepKeepsTheInvariant := by
  intro s t hs h
  have hmem : s.dmem.wf := hs.1
  cases stepEffect h with
  | quiet hq => exact hq.inv hs
  | reset _ hu ht => exact hu.inv (ht ▸ wf_hardwareReset (s := popped s) hmem)
  | completion _ w _ ht => exact ht ▸ inv_complete (s := popped s) hmem (wordEffect_sound w _)
  | write _ _ _ rest _ _ _ _ hw => exact hw.inv ((hardwareSame_consumed s rest).inv hs)

/-! ### Who changes what -/

theorem WriteEffect.done_cases {s t : State} {v : Word} {r : Reg} (h : WriteEffect s v r t) :
    t.done = s.done ∨ (t.done = false ∧ ((r = .cmd ∧ t.eng = .busy v) ∨ (r = .status ∧ v.getLsbD 1 = true) ∨
      (r = .ctrl ∧ v.getLsbD 1 = true))) := by
  cases h with
  | issue => exact .inr ⟨rfl, .inl ⟨rfl, rfl⟩⟩
  | clearDone hv => exact .inr ⟨rfl, .inr (.inl ⟨rfl, hv⟩)⟩
  | softReset hv => exact .inr ⟨rfl, .inr (.inr ⟨rfl, hv⟩)⟩
  | _ => exact .inl rfl

theorem WriteEffect.eng_cases {s t : State} {v : Word} {r : Reg} (h : WriteEffect s v r t) :
    t.eng = s.eng ∨ (r = .cmd ∧ t.eng = .busy v) ∨ (r = .ctrl ∧ t.eng = .idle) := by
  cases h with
  | issue => exact .inr (.inl ⟨rfl, rfl⟩)
  | softReset => exact .inr (.inr ⟨rfl, rfl⟩)
  | _ => exact .inl rfl

section DoneAndBusy
variable {s t : State} (h : step s = .next t)
include h

/-- Only a completion sets DONE. -/
theorem completion_of_done_set (h0 : s.done = false) (h1 : t.done = true) :
    nextTurn s = .engine ∧ (∃ w, s.eng = .busy w) ∧ t.eng = .idle := by
  cases stepEffect h with
  | quiet hq => simp [hq.done, h0] at h1
  | reset _ hu => simp [hu.done] at h1
  | completion hn w he ht => exact ⟨hn, ⟨w, he⟩, ht ▸ rfl⟩
  | write _ _ _ _ _ _ _ _ hw =>
    rcases hw.done_cases with hd | ⟨hd, -⟩
    · simp [hd, h0] at h1
    · simp [hd] at h1

/-- Only `rst`, an issue, a write-1-to-clear and the soft reset clear DONE. -/
theorem clear_of_done_cleared (h1 : s.done = true) (h0 : t.done = false) :
    nextTurn s = .rst ∨
      (nextTurn s = .host ∧ ∃ offset v rest, s.bus = .wr .word offset v :: rest ∧
        ((offset.toNat % 4096 = 0x010 ∧ t.eng = .busy v) ∨
          (offset.toNat % 4096 = 0x00C ∧ v.getLsbD 1 = true) ∨
          (offset.toNat % 4096 = 0x008 ∧ v.getLsbD 1 = true))) := by
  cases stepEffect h with
  | quiet hq => simp [hq.done, h1] at h0
  | reset hn _ => exact .inl hn
  | completion _ _ _ ht => simp [ht] at h0
  | write hn offset v rest r hb hr _ hw =>
    refine .inr ⟨hn, offset, v, rest, hb, ?_⟩
    rcases hw.done_cases with hd | ⟨-, ⟨rfl, he⟩ | ⟨rfl, hv⟩ | ⟨rfl, hv⟩⟩
    · simp [hd, h1] at h0
    · exact .inl ⟨hr, he⟩
    · exact .inr (.inl ⟨hr, hv⟩)
    · exact .inr (.inr ⟨hr, hv⟩)

/-- Only a CMD write makes the engine busy. -/
theorem issue_of_becomes_busy (he : s.eng = .idle) {w : Word} (hw : t.eng = .busy w) :
    nextTurn s = .host ∧ ∃ offset rest, s.bus = .wr .word offset w :: rest ∧ offset.toNat % 4096 = 0x010 := by
  cases stepEffect h with
  | quiet hq => simp [hq.eng, he] at hw
  | reset _ hu => simp [hu.eng] at hw
  | completion _ _ _ ht => simp [ht] at hw
  | write hn offset v rest r hb hr _ heff =>
    rcases heff.eng_cases with hsame | ⟨rfl, hv⟩ | ⟨-, hidle⟩
    · simp [hsame, he] at hw
    · obtain rfl : v = w := by simpa [hv] using hw
      exact ⟨hn, offset, rest, hb, hr⟩
    · simp [hidle] at hw

/-- Only a completion and `rst` end a busy engine's command. -/
theorem ends_of_leaves_busy {w : Word} (he : s.eng = .busy w) (hne : t.eng ≠ s.eng) :
    t.eng = .idle ∧ (nextTurn s = .engine ∨ nextTurn s = .rst) := by
  cases stepEffect h with
  | quiet hq => exact absurd hq.eng hne
  | reset hn hu => exact ⟨hu.eng, .inr hn⟩
  | completion hn _ _ ht => exact ⟨ht ▸ rfl, .inl hn⟩
  | write _ _ _ _ r _ _ hidle hw =>
    have hheld : heldReg r = false := by
      cases hr : heldReg r with
      | false => rfl
      | true => simp [hidle hr] at he
    rcases hw.eng_cases with hsame | ⟨rfl, -⟩ | ⟨rfl, -⟩
    · exact absurd hsame hne
    · cases hheld
    · cases hheld

end DoneAndBusy

/-- Settles O53: each way of changing DONE or ENG by a lemma of its own. -/
theorem whoChangesDoneAndBusy : Obligations.WhoChangesDoneAndBusy :=
  fun _ _ h => ⟨completion_of_done_set h, clear_of_done_cleared h, fun he _ => issue_of_becomes_busy h he,
    fun _ => ends_of_leaves_busy h⟩

/-- Settles O54: of a register's writes, only its own and the soft reset touch ARG, and only the soft reset RES. -/
theorem whoWritesArgAndRes : Obligations.WhoWritesArgAndRes := by
  intro s t h
  cases stepEffect h with
  | quiet hq => exact ⟨fun i hi => absurd (by rw [hq.args]) hi, fun hne => absurd hq.res hne⟩
  | reset hn hu =>
    exact ⟨fun i _ => .inl ⟨.inl hn, hu.args⟩, fun _ => .inl ⟨.inl hn, hu.res⟩⟩
  | completion hn w he ht =>
    subst ht
    exact ⟨fun i hi => absurd rfl hi, fun _ => .inr ⟨hn, rfl, w, he⟩⟩
  | write hn offset v rest r hb hr hidle hw =>
    cases hw with
    | softReset hv =>
      have hreset : ResetsNext s := .inr ⟨hn, hidle rfl, offset, v, rest, hb, hr, hv⟩
      exact ⟨fun i _ => .inl ⟨hreset, rfl⟩, fun _ => .inl ⟨hreset, rfl⟩⟩
    | setArg j =>
      refine ⟨fun i hi => .inr ⟨hn, hidle rfl, offset, rest, ?_⟩, fun hne => absurd rfl hne⟩
      have hij : j = i := by
        by_contra hne
        have hne' : (j : Nat) ≠ i := fun h => hne (Fin.ext h)
        exact hi (by simp [hne'])
      subst hij
      exact ⟨by simpa using hb, hr⟩
    | _ => exact ⟨fun i hi => absurd rfl hi, fun hne => absurd rfl hne⟩

/-- Settles O55: a completion that writes is OK, and of the register writes only DDATA's stores. -/
theorem whoWritesDmem : Obligations.WhoWritesDmem := by
  intro s t x h hx
  cases stepEffect h with
  | quiet hq => exact absurd (by rw [State.byteAt, State.byteAt, hq.dmem]) hx
  | reset hn _ ht =>
    cases he : s.eng with
    | idle => exact absurd (by rw [ht, State.hardwareReset_of_idle (s := popped s) he]; rfl) hx
    | busy w => exact .inr (.inr ⟨hn, w, rfl⟩)
  | completion hn w he ht =>
    refine .inl ⟨hn, ?_, w, he⟩
    by_contra herr
    subst ht
    exact hx (memSame_complete (popped s) _ ((wordEffect_sound w _).noWrites herr) x)
  | write hn offset v rest r hb hr hidle hw =>
    cases hw with
    | store hlt =>
      refine .inr (.inl ⟨hn, hidle rfl, ?_, offset, v, rest, hb, hr⟩)
      by_contra hne
      exact hx ((s.dmem.read_write _ _ _).trans (if_neg hne))
    | _ => exact absurd rfl hx

end Sys2Proof.Machine
end

