-- ==== Sys2Proof/Proofs/Memory.lean ====
section
/-! PROOFS. The bus (20_memory.md): reserved offsets (R59), the access width (R60), bus holding while a command executes
(R61, 70_reset_and_hazards.md R241), and the read that waits for a result (R66). -/

namespace Sys2Proof.Machine

/-! ### Reserved and misaligned offsets (R59) -/

theorem holds_eq_false_of_regAt_none {offset : Word} (hr : regAt offset = none) (s : State) : s.holds offset = false := by
  simp [State.holds, hr]

/-- Settles O38: no register stands at such an offset, so the access is never held. -/
theorem reservedOffsetsReadZero : Obligations.ReservedOffsetsReadZero := by
  intro s offset rest hn o ho
  have hr : regAt offset = none := regAt_reserved ho
  have hh := holds_eq_false_of_regAt_none hr s
  refine ⟨fun hb => ?_, fun v hb => ?_⟩
  · rw [step_read hn hb hh, readReg_none hr]
    rfl
  · rw [step_write hn hb hh, writeReg_none hr]
    rfl

/-! ### The access width (R60) -/

/-- The host's action is refused for its width alone, performed or held. -/
theorem hostAction_refused_iff (op : HostOp) (rest : List HostOp) (s : State) (r : Refusal) :
    hostAction op rest s = .refused r ↔ r = .narrowAccess ∧ ¬ op.WellFormed := by
  cases op with
  | wait => simp only [hostAction]; split <;> simp
  | wr width offset v =>
    cases width with
    | word => simp only [hostAction]; split <;> simp
    | byte => simp [hostAction, eq_comm]
    | half => simp [hostAction, eq_comm]
  | rd width offset =>
    cases width with
    | word => simp only [hostAction]; split <;> simp
    | byte => simp [hostAction, eq_comm]
    | half => simp [hostAction, eq_comm]

/-- The engine and the reset input always answer a next state (60_exceptions.md R207). -/
theorem step_next_of_ne_host {s : State} (hn : nextTurn s ≠ .host) : ∃ t, step s = .next t := by
  cases h : nextTurn s with
  | host => exact absurd h hn
  | rst => exact ⟨_, step_rst h⟩
  | engine =>
    cases he : s.eng with
    | idle => exact ⟨_, step_engine_idle h he⟩
    | busy w => exact ⟨_, (step_engine h he).trans (completeWord_eq w _)⟩

theorem step_host_nil {s : State} (hn : nextTurn s = .host) (hb : s.bus = []) : step s = .next (popped s) := by
  rw [step_eq_takeTurn, hn]
  exact hostTurn_nil (s := popped s) hb

/-- Settles O39: only the host's turn can be refused, and that for the width of the action at the head of its program. -/
theorem onlyNarrowAccessesStop : Obligations.OnlyNarrowAccessesStop := by
  intro s r
  by_cases hn : nextTurn s = .host
  · cases hb : s.bus with
    | nil => simp [step_host_nil hn hb]
    | cons op rest => simp [step_host hn hb, hostAction_refused_iff, hn]
  · obtain ⟨t, ht⟩ := step_next_of_ne_host hn
    simp [ht, hn]

/-! ### Bus holding (70_reset_and_hazards.md R241) -/

/-- The offsets of the registers that R241 names. -/
theorem exists_heldReg {offset : Word} (ha : offset.toNat % 4096 % 4 = 0)
    (ho : offset.toNat % 4096 = 0x008 ∨ offset.toNat % 4096 = 0x010 ∨
      (0x020 ≤ offset.toNat % 4096 ∧ offset.toNat % 4096 ≤ 0x054)) :
    ∃ r, regAt offset = some r ∧ heldReg r = true := by
  obtain ho | ho | ⟨hlo, hhi⟩ | ⟨hlo, hhi⟩ | ho | ho :
      offset.toNat % 4096 = 0x008 ∨ offset.toNat % 4096 = 0x010 ∨
      (0x020 ≤ offset.toNat % 4096 ∧ offset.toNat % 4096 < 0x040) ∨
      (0x040 ≤ offset.toNat % 4096 ∧ offset.toNat % 4096 < 0x050) ∨
      offset.toNat % 4096 = 0x050 ∨ offset.toNat % 4096 = 0x054 := by omega
  · exact ⟨.ctrl, regAt_of_offset ho, rfl⟩
  · exact ⟨.cmd, regAt_of_offset ho, rfl⟩
  · exact ⟨.arg ⟨(offset.toNat % 4096 - 0x020) / 4, by omega⟩, regAt_of_offset (by simp only [regOffset]; omega), rfl⟩
  · exact ⟨.res ⟨(offset.toNat % 4096 - 0x040) / 4, by omega⟩, regAt_of_offset (by simp only [regOffset]; omega), rfl⟩
  · exact ⟨.daddr, regAt_of_offset ho, rfl⟩
  · exact ⟨.ddata, regAt_of_offset ho, rfl⟩

/-- Settles O40: the register at the offset is one that R241 names, or one whose write is ignored. -/
theorem busyHoldsTheBus : Obligations.BusyHoldsTheBus := by
  intro s w offset op rest he hn hb hop o
  refine ⟨fun ha ho => ?_, fun v hv ho => ?_⟩
  · obtain ⟨r, hr, hheld⟩ := exists_heldReg ha ho
    exact step_held hn hb hop ((holds_of_busy (s.busy_of_eng he) hr).trans hheld)
  · subst hv
    rcases ho with ho | ho
    · have hr := regAt_of_offset (r := .id) ho
      exact step_write_reg hn (holds_eq_false_of_heldReg hr rfl s) hr hb
    · have hr := regAt_of_offset (r := .config) ho
      exact step_write_reg hn (holds_eq_false_of_heldReg hr rfl s) hr hb

/-! ### The host's turns while a command executes (R61) -/

section BusyEngine
variable {s : State} {w : Word} (he : s.eng = .busy w)
include he

/-- A register that R241 names is not accessed. -/
theorem heldReg_eq_false_of_performed {offset : Word} {r : Reg} (hh : s.holds offset = false)
    (hr : regAt offset = some r) : heldReg r = false := by
  rw [← holds_of_busy (s.busy_of_eng he) hr, hh]

/-- A performed read has no side effect: DDATA, which has one, is held. -/
theorem readReg_snd_of_busy {offset : Word} (hh : s.holds offset = false) (rest : List HostOp) :
    (readReg offset (consumed s rest)).2 = consumed s rest := by
  rcases readReg_snd offset (consumed s rest) with h | ⟨hr, -⟩
  · exact h
  · cases heldReg_eq_false_of_performed he hh hr

/-- A performed write has no effect: ID and CONFIG ignore it, and STATUS has no DONE to clear. -/
theorem writeReg_of_busy (hdone : s.done = false) {offset : Word} (hh : s.holds offset = false) (v : Word)
    (rest : List HostOp) : writeReg offset v (consumed s rest) = consumed s rest := by
  cases hr : regAt offset with
  | none => exact writeReg_none hr v _
  | some r =>
    rw [writeReg_of_regAt hr]
    cases r with
    | id => rfl
    | config => rfl
    | status => exact State.writeStatus_of_done_false (s := consumed s rest) hdone v
    | _ => cases heldReg_eq_false_of_performed he hh hr

/-- While a command executes, the host's turn moves on in its program, and may add a value read, and that is all. -/
theorem step_host_of_busy (hdone : s.done = false) (hn : nextTurn s = .host) {t : State} (h : step s = .next t) :
    ∃ ops vals, t = { popped s with bus := ops, reads := vals } := by
  rcases step_cases h with ⟨hr, -⟩ | ⟨hengine, -⟩ | ⟨-, rfl | ⟨op, rest, -, ⟨-, -, rfl⟩ | ⟨offset, -, hh, rfl⟩ |
    ⟨offset, v, -, hh, rfl⟩⟩⟩
  · simp [hn] at hr
  · simp [hn] at hengine
  · exact ⟨s.bus, s.reads, rfl⟩
  · exact ⟨rest, s.reads, rfl⟩
  · rw [readReg_snd_of_busy he hh]
    exact ⟨rest, _, rfl⟩
  · rw [writeReg_of_busy he hdone hh]
    exact ⟨rest, s.reads, rfl⟩

end BusyEngine

/-- Settles O41: only the host's program and the values it has read differ, besides the schedule. -/
theorem hostCannotDisturbACommand : Obligations.HostCannotDisturbACommand := by
  rintro s t w ⟨-, -, -, heng⟩ he hn h
  obtain ⟨hdone, -⟩ := (engineConsistent_iff s).1 heng w he
  obtain ⟨ops, vals, rfl⟩ := step_host_of_busy he hdone hn h
  exact ⟨rfl, rfl, rfl, rfl, rfl, rfl, rfl⟩

/-! ### The read that waits for a result (R66) -/

/-- While a legal command executes, the turns stand as scheduled. -/
theorem illegalLatched_of_decode {s : State} {w : Word} {i : Instr} (he : s.eng = .busy w) (hd : decode w = .ok i) :
    illegalLatched s = false := by
  simp [illegalLatched_of_busy he, legalWord_of_decode hd]

/-- A completion leaves the schedule alone and depends on nothing in it. -/
theorem exec_popped {i : Instr} {s t : State} (h : exec i s = .next t) : exec i (popped s) = .next (popped t) := by
  rw [exec_next_iff] at h ⊢
  rw [h, commandEffect_popped]
  rfl

/-- A legal command's completion, then the read of RES at the head of the host's program. -/
theorem run_completion_then_read {s t : State} {w offset : Word} {i : Instr} {k : Fin 4} {rest : List HostOp}
    {turns : List Turn} (he : s.eng = .busy w) (hd : decode w = .ok i) (hx : exec i s = .next t)
    (hb : s.bus = .rd .word offset :: rest) (hr : regAt offset = some (.res k))
    (hs : s.schedule = .engine :: .host :: turns) :
    Sys2Proof.core.run 2 s = .next { t with bus := rest, reads := s.reads ++ [t.res[k]], schedule := turns } := by
  have hturn : nextTurn s = .engine := nextTurn_of_cons hs (illegalLatched_of_decode he hd)
  have hcomplete : step s = .next (popped t) := by
    rw [step_engine hturn he, completeWord_of_decode hd, exec_popped hx]
  obtain rfl := (exec_next_iff i s t).1 hx
  have hread := step_read_reg (s := popped (s.complete (commandEffect i s)))
    (nextTurn_of_idle_head rfl (by simp [hs])) (holds_eq_false_of_idle rfl offset) hr (by simp) hb
  have hturns : s.schedule.tail.tail = turns := by simp [hs]
  subst hturns
  exact (run_succ hcomplete).trans (run_succ hread)

/-- Settles O42, by induction on the host's turns before the completion: each leaves the read held. -/
theorem heldReadReturnsTheResult : Obligations.HeldReadReturnsTheResult := by
  intro s t w offset i k rest turns n he hd hx hb ho hs
  have hr : regAt offset = some (.res k) := regAt_of_offset ho
  induction n generalizing s t with
  | zero => exact run_completion_then_read he hd hx hb hr hs
  | succ n ih =>
    have hturn : nextTurn s = .host := nextTurn_of_cons hs (illegalLatched_of_decode he hd)
    have hheld : s.holds offset = true := holds_of_busy (s.busy_of_eng he) hr
    have hstep : step s = .next (popped s) := step_held hturn hb (.inl rfl) hheld
    exact (run_succ hstep).trans (ih (popped s) (popped t) he (exec_popped hx) hb (by simp [hs]))

end Sys2Proof.Machine
end

