-- ==== Sys2Proof/Proofs/Encoding.lean ====
section
/-! PROOFS. The command word (30_encoding.md R70, R71, R74, R75): decoding and encoding as equations of its two fields; and
the host's assembly (R76, R77): `wait`, and the command line with its operands. -/

namespace Sys2Proof.Machine

/-! ### The two fields of a command word (R70) -/

theorem rsvField_eq_zero_iff (w : Word) : rsvField w = 0 ↔ w.toNat / 256 = 0 := by
  rw [← BitVec.toNat_inj, rsvField_toNat]
  rfl

theorem encode_toNat (i : Instr) : (encode i).toNat = (opcode i).toNat := by
  rw [encode, toNat_append_eq]
  simp

@[simp] theorem opField_encode (i : Instr) : opField (encode i) = opcode i := by
  apply BitVec.eq_of_toNat_eq
  rw [opField_toNat, encode_toNat, Nat.mod_eq_of_lt (opcode i).isLt]

/-- A word is a command's encoding when its fields are: RSV 0 and OP the opcode. -/
theorem eq_encode_iff (w : Word) (i : Instr) : w = encode i ↔ rsvField w = 0 ∧ opField w = opcode i := by
  have hop : (opcode i).toNat < 256 := (opcode i).isLt
  rw [rsvField_eq_zero_iff, ← BitVec.toNat_inj, ← BitVec.toNat_inj, opField_toNat, encode_toNat]
  omega

/-! ### Decoding by cases (R71, R74, R75) -/

theorem decodeOpcode_eq_ok_iff (op : Byte) (i : Instr) : decodeOpcode op = .ok i ↔ op = opcode i := by
  constructor
  · intro h
    apply BitVec.eq_of_toNat_eq
    unfold decodeOpcode at h
    split at h
    case h_11 => cases h
    all_goals
      cases h
      assumption
  · rintro rfl
    cases i <;> rfl

theorem decodeOpcode_ne_reservedBits (op : Byte) : decodeOpcode op ≠ .error .reservedBits := by
  unfold decodeOpcode
  split <;> simp

theorem decode_eq_ok_iff (w : Word) (i : Instr) : decode w = .ok i ↔ rsvField w = 0 ∧ opField w = opcode i := by
  rw [decode, ← decodeOpcode_eq_ok_iff]
  split
  case isTrue hrsv => exact (and_iff_right hrsv).symm
  case isFalse hrsv => simp only [hrsv, false_and, reduceCtorEq]

theorem decode_eq_reservedBits_iff (w : Word) : decode w = .error .reservedBits ↔ rsvField w ≠ 0 := by
  rw [decode]
  split
  case isTrue hrsv => exact iff_of_false (decodeOpcode_ne_reservedBits _) (not_not_intro hrsv)
  case isFalse hrsv => exact iff_of_true rfl hrsv

/-- Settles O1: both sides say that RSV is 0 and OP the command's opcode. -/
theorem decodeInvertsEncode : Obligations.DecodeInvertsEncode :=
  fun w i => (decode_eq_ok_iff w i).trans (eq_encode_iff w i).symm

theorem decode_encode (i : Instr) : decode (encode i) = .ok i := (decodeInvertsEncode _ i).2 rfl

/-- Settles O3: the ten words are the ten encodings. -/
theorem commandWordsDecode : Obligations.CommandWordsDecode :=
  ⟨decode_encode .nop, decode_encode .wruint, decode_encode .rduint, decode_encode .cksum, decode_encode .frame,
    decode_encode .sealBlock, decode_encode .validate, decode_encode .xor, decode_encode .encode, decode_encode .decode⟩

/-! ### Legal words, and the completion of an illegal one (R71, R75) -/

/-- Each of the ten numbers of R74 is the opcode of a command. -/
theorem exists_opcode : ∀ n ∈ assignedOpcodes, ∃ i, (opcode i).toNat = n := by
  simp only [assignedOpcodes, List.forall_mem_cons]
  exact ⟨⟨.nop, rfl⟩, ⟨.wruint, rfl⟩, ⟨.rduint, rfl⟩, ⟨.cksum, rfl⟩, ⟨.frame, rfl⟩, ⟨.sealBlock, rfl⟩, ⟨.validate, rfl⟩,
    ⟨.xor, rfl⟩, ⟨.encode, rfl⟩, ⟨.decode, rfl⟩, List.forall_mem_nil _⟩

theorem legalWord_iff_exists_decode (w : Word) : LegalWord w ↔ ∃ i, decode w = .ok i := by
  constructor
  · rintro ⟨hrsv, hop⟩
    obtain ⟨i, hi⟩ := exists_opcode _ hop
    refine ⟨i, (decode_eq_ok_iff w i).2 ⟨(rsvField_eq_zero_iff w).2 hrsv, BitVec.eq_of_toNat_eq ?_⟩⟩
    rw [opField_toNat, hi]
  · rintro ⟨i, hi⟩
    exact legalWord_of_decode hi

/-- The engine's turn on a latched illegal word is its completion with ILLEGAL_CMD alone. -/
theorem step_engine_illegal {s : State} {w : Word} (hn : nextTurn s = .engine) (he : s.eng = .busy w)
    (hl : ¬ LegalWord w) : step s = .next ((popped s).complete (raiseError .illegalCmd)) := by
  rw [step_engine hn he, completeWord_eq, wordEffect_of_illegal hl]

/-- Settles O2: a latched illegal word gives the engine the next turn, and ILLEGAL_CMD's effect writes nothing. -/
theorem decodingIsTotalAndIllegalWordsComplete : Obligations.DecodingIsTotalAndIllegalWordsComplete := by
  refine ⟨legalWord_iff_exists_decode, fun w => ?_, fun s w he hl hr => ?_⟩
  · rw [decode_eq_reservedBits_iff, ne_eq, rsvField_eq_zero_iff]
  · have hn : nextTurn s = .engine := nextTurn_of_illegal he hl hr
    exact ⟨hn, _, step_engine_illegal hn he hl, completedWith_complete _ _, memSame_complete (popped s) _ rfl, rfl⟩

/-! ### `wait` (R76) -/

/-- Settles O43: `wait` polls BUSY, which is whether the engine is idle. -/
theorem waitPollsBusy : Obligations.WaitPollsBusy := by
  intro s rest hn hb
  rw [step_host hn hb, hostAction, popped_busy]
  refine ⟨fun he => if_neg ?_, fun he => if_pos ?_⟩
  · rw [s.busy_eq_false_iff.2 he]
    decide
  · exact Bool.eq_true_of_not_eq_false (mt s.busy_eq_false_iff.1 he)

/-! ### The command line (R77) -/

/-- The state with its ARG registers and the host's program set. -/
def State.withArgs (s : State) (a : Vector Word 8) (ops : List HostOp) : State := { s with args := a, bus := ops }

theorem State.withArgs_self (s : State) : s.withArgs s.args s.bus = s := rfl

/-- The ARG registers after the writes of the listed pairs, in order. -/
def setArgs : Vector Word 8 → List (Fin 8 × Word) → Vector Word 8
  | a, [] => a
  | a, (i, v) :: rest => setArgs (a.set i v) rest

/-- An ARG register no pair names keeps its value. -/
theorem setArgs_getElem_of_notMem (l : List (Fin 8 × Word)) (a : Vector Word 8) (k : Fin 8) (h : ∀ v, (k, v) ∉ l) :
    (setArgs a l)[k] = a[k] := by
  induction l generalizing a with
  | nil => rfl
  | cons p rest ih =>
    obtain ⟨i, u⟩ := p
    have hne : (i : Nat) ≠ k := fun hi => h u (by simp [Fin.ext hi])
    rw [setArgs, ih _ fun v hv => h v (List.mem_cons_of_mem _ hv)]
    simp [hne]

/-- An ARG register that the pairs name with one value only takes that value. -/
theorem setArgs_getElem_of_mem (l : List (Fin 8 × Word)) (a : Vector Word 8) (k : Fin 8) (v : Word)
    (h : (k, v) ∈ l) (hone : ∀ u, (k, u) ∈ l → u = v) : (setArgs a l)[k] = v := by
  induction l generalizing a with
  | nil => cases h
  | cons p rest ih =>
    have hrest (u : Word) (hu : (k, u) ∈ rest) : u = v := hone u (List.mem_cons_of_mem _ hu)
    by_cases hv : (k, v) ∈ rest
    · exact ih _ hv hrest
    · obtain rfl : (k, v) = p := (List.mem_cons.1 h).resolve_right hv
      rw [setArgs, setArgs_getElem_of_notMem rest _ k fun u hu => hv (hrest u hu ▸ hu)]
      simp

/-- The operands in ARG order, each with the register it is written to. -/
def argPairs (operands : List Word) : List (Fin 8 × Word) := (List.finRange 8).zip operands

theorem writeArgs_eq_map (operands : List Word) :
    writeArgs operands = (argPairs operands).map fun p => wrReg (.arg p.1) p.2 := by
  rw [writeArgs, argPairs, List.map_zip_eq_zipWith]
  rfl

theorem argPairs_length {operands : List Word} (h : operands.length ≤ 8) :
    (argPairs operands).length = operands.length := by
  simpa [argPairs] using h

theorem mem_argPairs_iff (operands : List Word) (k : Fin 8) (v : Word) :
    (k, v) ∈ argPairs operands ↔ operands[k.val]? = some v := by
  simp only [argPairs, List.mem_iff_getElem?, List.getElem?_zip_eq_some]
  constructor
  · rintro ⟨n, hk, hv⟩
    obtain ⟨hn, rfl⟩ := List.getElem?_eq_some_iff.1 hk
    simpa using hv
  · intro hv
    exact ⟨k, by simp, hv⟩

/-- Writing the operands in ARG order leaves operand `k` in register `k`, and the registers past the last one alone. -/
theorem setArgs_argPairs_getElem (operands : List Word) (a : Vector Word 8) (k : Fin 8) :
    (setArgs a (argPairs operands))[k] = (operands[k.val]?).getD a[k] := by
  cases hk : operands[k.val]? with
  | none => exact setArgs_getElem_of_notMem _ a k fun v => by simp [mem_argPairs_iff, hk]
  | some v =>
    exact setArgs_getElem_of_mem _ a k v ((mem_argPairs_iff operands k v).2 hk) fun u => by
      simp [mem_argPairs_iff, hk, eq_comm]

theorem operandCount_le (i : Instr) : operandCount i ≤ 8 := by
  cases i <;> decide

section CommandLine
variable {s : State} (he : s.eng = .idle) (hs : s.schedule = [])
include he hs

/-- A write of a register at the head of the program, its effect given by `writeAt`. -/
theorem step_withArgs_write (a : Vector Word 8) (r : Reg) (v : Word) (ops : List HostOp) :
    step (s.withArgs a (wrReg r v :: ops)) = .next ((s.withArgs a ops).writeAt v r) := by
  have hidle : (s.withArgs a (wrReg r v :: ops)).eng = .idle := he
  have hsched : (s.withArgs a (wrReg r v :: ops)).schedule = [] := hs
  rw [step_write_reg (nextTurn_of_idle hidle hsched) (holds_eq_false_of_idle hidle _) (regAt_regOffset r) rfl, consumed,
    popped_eq_self hsched]
  rfl

/-- The ARG writes of a command line, the rest of the host's program following. -/
theorem run_argWrites (l : List (Fin 8 × Word)) (a : Vector Word 8) (ops : List HostOp) :
    Sys2Proof.core.run l.length (s.withArgs a (l.map (fun p => wrReg (.arg p.1) p.2) ++ ops)) =
      .next (s.withArgs (setArgs a l) ops) := by
  induction l generalizing a with
  | nil => rfl
  | cons p rest ih => exact (run_succ (step_withArgs_write he hs a (.arg p.1) p.2 _)).trans (ih (a.set p.1 p.2))

/-- A whole command line: its operands in ARG, then its word issued. -/
theorem run_commandLine (i : Instr) (operands : List Word) (hl : operands.length ≤ 8) (a : Vector Word 8)
    (ops : List HostOp) :
    Sys2Proof.core.run (operands.length + 1) (s.withArgs a (expandPseudo (.command i operands) ++ ops)) =
      .next ((s.withArgs (setArgs a (argPairs operands)) ops).issue (encode i)) := by
  have hargs := run_argWrites he hs (argPairs operands) a (wrReg .cmd (encode i) :: ops)
  rw [argPairs_length hl, ← writeArgs_eq_map] at hargs
  rw [expandPseudo, List.append_assoc]
  exact (run_add 1 hargs).trans (run_succ (step_withArgs_write he hs _ .cmd (encode i) ops))

end CommandLine

/-- Settles O44: the run of the command line; operand `k` stands in ARG `k`. -/
theorem commandPseudoIssuesWithOperands : Obligations.CommandPseudoIssuesWithOperands := by
  intro s i operands he hs hwf hb
  have hl : operands.length ≤ 8 := hwf.trans_le (operandCount_le i)
  have hrun := run_commandLine he hs i operands hl s.args []
  have hbus : s.bus = expandPseudo (.command i operands) ++ [] := hb
  rw [← hbus, s.withArgs_self] at hrun
  exact ⟨_, hrun, rfl, rfl, rfl, opField_encode i, rfl, setArgs_argPairs_getElem operands s.args, rfl, rfl, rfl, rfl, rfl⟩

end Sys2Proof.Machine
end

