-- ==== Sys2Proof/Proofs/Framer.lean ====
section
/-! PROOFS. The framer (40_framer.md): Adler-32 (R100, R101), and the commands NOP, WRUINT, RDUINT, CKSUM, FRAME, SEAL and
VALIDATE (R110-R135). -/

namespace Sys2Proof.Machine

/-! ### Adler-32 as two sums (R100) -/

/-- The weighted sum of R100's `s2`, its first byte set apart. -/
theorem sum_weights_cons (b : Byte) (rest : List Byte) :
    ((List.range (b :: rest).length).map fun i => ((b :: rest).length - i) * ((b :: rest)[i]?.getD 0).toNat).sum =
      (rest.length + 1) * b.toNat +
        ((List.range rest.length).map fun i => (rest.length - i) * (rest[i]?.getD 0).toNat).sum := by
  rw [List.length_cons, List.range_succ_eq_map, List.map_cons, List.sum_cons, List.map_map]
  simp [Function.comp_def]

/-- One byte of the loop on two sums not yet reduced. -/
theorem adlerStep_mod (p q : Nat) (b : Byte) :
    adlerStep (p % 65521, q % 65521) b = ((p + b.toNat) % 65521, (q + (p + b.toNat)) % 65521) := by
  simp [adlerStep, adlerModulus, Nat.add_mod]

/-- The loop started anywhere: each byte is added once to `s1`, and to `s2` once for itself and once for each byte after it,
as is the `s1` it starts from. -/
theorem adler_fold_eq_sums (s : List Byte) (p q : Nat) :
    s.foldl adlerStep (p % 65521, q % 65521) =
      ((p + (s.map BitVec.toNat).sum) % 65521,
        (q + s.length * p +
          ((List.range s.length).map fun i => (s.length - i) * (s[i]?.getD 0).toNat).sum) % 65521) := by
  induction s generalizing p q with
  | nil => simp
  | cons b rest ih =>
    rw [List.foldl_cons, adlerStep_mod, ih, sum_weights_cons, List.map_cons, List.sum_cons, List.length_cons]
    congr 2 <;> ring

/-- Settles O28: the loop from `(1, 0)`. -/
theorem adlerIsTwoSums : Obligations.AdlerIsTwoSums := by
  intro s
  have hfold := adler_fold_eq_sums s 1 0
  simp only [adler32]
  rw [show ((1, 0) : Nat × Nat) = (1 % 65521, 0 % 65521) from rfl, hfold, Nat.zero_add, Nat.mul_one]

/-! ### Adler-32's bounds and zero bytes (R101) -/

theorem adler32_zeros (k : Nat) : adler32 (zeros k) = (k % 65521) * 65536 + 1 := by
  have hfold := adler_fold_zeros k 1 0 (by decide)
  simp only [adler32]
  rw [show ((1, 0) : Nat × Nat) = (1, 0 % adlerModulus) from rfl, hfold, Nat.zero_add, Nat.mul_one]
  rfl

/-- The halves of a checksum are the loop's two sums. -/
theorem adler32_halves_lt (s : List Byte) : adler32 s % 65536 < 65521 ∧ adler32 s / 65536 < 65521 := by
  obtain ⟨h1, h2⟩ := adler_fold_lt s (1, 0) (by decide)
  simp only [adlerModulus] at h1 h2
  simp only [adler32]
  omega

theorem coveredRegion_zeros (k : Nat) : coveredRegion (zeros k) = zeros (k - 4) := by
  simp [coveredRegion, zeros]

theorem checksumField_zeros {k : Nat} (h : 4 ≤ k) : checksumField (zeros k) = zeros 4 := by
  rw [checksumField, zeros_length, Config.ckW_val, zeros, List.drop_replicate, Nat.sub_sub_self h, zeros]

/-- `Validate` of a sequence too short for a header and a checksum (R102). -/
theorem validateBlock_of_short {blk : List Byte} (h : blk.length < 9) :
    validateBlock blk = { order := 0, declared := 0, good := false, comp := 0 } :=
  if_pos h

/-- The checksum of zero bytes is never the 0 that stands in their checksum field. -/
theorem zeros_not_good (k : Nat) : (validateBlock (zeros k)).good = false := by
  by_cases hk : 9 ≤ k
  · have hstored : beValue (zeros 4) = 0 := rfl
    rw [validateBlock_of_length (by rwa [zeros_length]), coveredRegion_zeros, checksumField_zeros (by omega),
      adler32_zeros, hstored]
    exact beq_false_of_ne (Nat.succ_ne_zero _)
  · rw [validateBlock_of_short (by rw [zeros_length]; exact not_le.1 hk)]

/-- Settles O27: the bounds are those of the loop's two sums, and zero bytes change only `s2`. -/
theorem adlerProperties : Obligations.AdlerProperties :=
  ⟨rfl, adler32_halves_lt, adler32_zeros, zeros_not_good⟩

theorem toNat_ofNat_adler32 (s : List Byte) : (BitVec.ofNat 32 (adler32 s)).toNat = adler32 s := by
  rw [BitVec.toNat_ofNat, Nat.mod_eq_of_lt (adler32_lt s)]

/-! ### Four bytes and a word -/

theorem beBytes_four (v : Word) :
    beBytes 4 v.toNat = [v.extractLsb' 24 8, v.extractLsb' 16 8, v.extractLsb' 8 8, v.extractLsb' 0 8] := rfl

theorem State.readBytes_four (s : State) (a : Nat) :
    s.dmem.readBytes a 4 = [s.byteAt a, s.byteAt (a + 1), s.byteAt (a + 2), s.byteAt (a + 3)] := rfl

/-- The big-endian value of four bytes of DMEM is the word made of them. -/
theorem beValue_readBytes_four (s : State) (a : Nat) :
    beValue (s.dmem.readBytes a 4) =
      (s.byteAt a ++ s.byteAt (a + 1) ++ s.byteAt (a + 2) ++ s.byteAt (a + 3)).toNat := by
  simp only [State.readBytes_four, beValue, toNat_append_eq, List.length_cons, List.length_nil]
  omega

theorem ofNat_beValue_readBytes_four (s : State) (a : Nat) :
    BitVec.ofNat 32 (beValue (s.dmem.readBytes a 4)) =
      s.byteAt a ++ s.byteAt (a + 1) ++ s.byteAt (a + 2) ++ s.byteAt (a + 3) := by
  rw [beValue_readBytes_four, BitVec.ofNat_toNat, BitVec.setWidth_eq]

/-! ### The fields of a block in DMEM (20_memory.md R55) -/

theorem orderByte_readBytes (s : State) (a : Nat) {L : Nat} (h : 1 ≤ L) :
    orderByte (s.dmem.readBytes a L) = s.byteAt a := by
  obtain ⟨k, rfl⟩ := Nat.exists_eq_add_of_le' h
  rfl

theorem declaredLength_readBytes (s : State) (a : Nat) {L : Nat} (h : 5 ≤ L) :
    declaredLength (s.dmem.readBytes a L) = beValue (s.dmem.readBytes (a + 1) 4) := by
  rw [declaredLength, Config.orderW_val, Config.lenW_val, Memory.readBytes_drop _ _ _ _ (by omega),
    Memory.readBytes_take _ _ _ _ (by omega)]

theorem coveredRegion_readBytes (m : Memory) (a L : Nat) : coveredRegion (m.readBytes a L) = m.readBytes a (L - 4) := by
  rw [coveredRegion_eq_take, Memory.readBytes_length, Memory.readBytes_take _ _ _ _ (Nat.sub_le L 4)]

theorem checksumField_readBytes (m : Memory) (a : Nat) {L : Nat} (h : 4 ≤ L) :
    checksumField (m.readBytes a L) = m.readBytes (a + L - 4) 4 := by
  rw [checksumField, Memory.readBytes_length, Config.ckW_val, Memory.readBytes_drop _ _ _ _ (Nat.sub_le L 4),
    Nat.sub_sub_self h, Nat.add_sub_assoc h]

/-- A framed block of any length, its padding written with the block's length. -/
theorem frameBlock_eq_sealRegion (ord : Byte) {p : List Byte} {n : Nat} (h : p.length = n) (L : Nat) :
    frameBlock ord p L = sealRegion ([ord] ++ beBytes 4 n ++ p ++ zeros (L - 4 - 5 - n)) := by
  subst h
  rfl

/-! ### Completion with an error, with one write, with one result -/

section Completion
variable (s : State)

/-- A raised error completes the command and changes neither DMEM nor RES (00_scope.md R12). -/
theorem complete_raiseError (e : ErrCode) :
    CompletedWith s (s.complete (raiseError e)) e ∧ MemSame s (s.complete (raiseError e)) ∧
      (s.complete (raiseError e)).res = s.res :=
  ⟨completedWith_complete s _, memSame_complete s _ rfl, rfl⟩

/-- The result registers an effect does not list keep their values. -/
theorem resSameExcept_complete {e : Effect} {changed : List (Fin 4)} (h : ∀ p ∈ e.results, p.1 ∈ changed) :
    ResSameExcept s (s.complete e) changed :=
  fun i hi => writeResults_getElem_of_notMem _ _ i fun p hp hpi => hi (hpi ▸ h p hp)

/-- A command that writes one region leaves every byte outside it alone. -/
theorem memSameOutside_complete_oneWrite {e : Effect} {a n : Nat} {bytes : List Byte} (he : e.writes = [(a, bytes)])
    (hn : bytes.length = n) : MemSameOutside s (s.complete e) a n := by
  subst hn
  exact fun x hx => byteAt_complete_outside s e x (by simpa [he] using hx)

/-- A command that writes one region leaves there the bytes written. -/
theorem readBytes_complete_oneWrite {e : Effect} {a n : Nat} {bytes : List Byte} (he : e.writes = [(a, bytes)])
    (hn : bytes.length = n) : (s.complete e).dmem.readBytes a n = bytes := by
  subst hn
  rw [State.complete_dmem, he]
  exact Memory.readBytes_writeBytes_same s.dmem a bytes

/-- A command that writes RES0 alone leaves the value there. -/
theorem res0_complete {e : Effect} {v : Word} (he : e.results = [(0, v)]) : (s.complete e).res[0] = v := by
  rw [State.complete_res, he]
  exact Vector.getElem_set_self (by decide)

/-- A command that writes RES0 alone keeps the other three. -/
theorem resSameExcept_complete_res0 {e : Effect} {v : Word} (he : e.results = [(0, v)]) :
    ResSameExcept s (s.complete e) [0] :=
  resSameExcept_complete s (by simp [he])

/-- A raised error said of a command that may write RES0. -/
theorem complete_raiseError_res0 (e : ErrCode) :
    ResSameExcept s (s.complete (raiseError e)) [0] ∧ CompletedWith s (s.complete (raiseError e)) e ∧
      MemSame s (s.complete (raiseError e)) ∧ (s.complete (raiseError e)).res = s.res :=
  ⟨fun _ _ => rfl, complete_raiseError s e⟩

/-- A command that only loads a value into RES0, or raises RANGE when its region `p` is not in DMEM. -/
theorem complete_load_or_range (p : Prop) [Decidable p] (v : Word) {t : State}
    (ht : t = s.complete (if ¬ p then raiseError .range else { results := [(0, v)] })) :
    MemSame s t ∧ ResSameExcept s t [0] ∧ (p → CompletedWith s t .ok ∧ t.res[0] = v) ∧
      (¬ p → CompletedWith s t .range ∧ t.res = s.res) := by
  subst ht
  by_cases hp : p
  · rw [if_neg (not_not_intro hp)]
    exact ⟨memSame_complete s _ rfl, resSameExcept_complete_res0 s rfl,
      fun _ => ⟨completedWith_complete s _, res0_complete s rfl⟩, fun h => absurd hp h⟩
  · obtain ⟨hothers, hcompleted, hmem, hres⟩ := complete_raiseError_res0 s .range
    rw [if_pos hp]
    exact ⟨hmem, hothers, fun h => absurd h hp, fun _ => ⟨hcompleted, hres⟩⟩

end Completion

/-! ### NOP (R110) -/

/-- STATUS after a completion: BUSY 0, DONE 1, the code, and LASTOP as before (10_state.md R34, 60_exceptions.md R206). -/
theorem toNat_statusWord_complete (s : State) (e : Effect) :
    (s.complete e).statusWord.toNat = s.lastop.toNat * 256 + (errorCode e.err).toNat * 16 + 2 := by
  have hbusy : (s.complete e).busy = false := (s.complete e).busy_eq_false_iff.2 rfl
  simp [State.statusWord_toNat, hbusy]

/-- Settles O10: NOP's effect is empty. -/
theorem nopOnlyCompletes : Obligations.NopOnlyCompletes := by
  refine ⟨decode_encode .nop, fun s => ⟨rfl, rfl, _, exec_eq_complete .nop _, ?_, Bool.and_true s.ie⟩⟩
  apply BitVec.eq_of_toNat_eq
  rw [toNat_statusWord_complete, State.issue_lastop]
  rfl

/-! ### WRUINT, RDUINT and CKSUM (R115, R118, R120) -/

/-- Settles O11: the four bytes DMEM holds at ARG0 are `BE_4` of ARG1. -/
theorem wruintStoresBigEndian : Obligations.WruintStoresBigEndian := by
  refine ⟨decode_encode .wruint, fun s => ⟨_, exec_eq_complete .wruint s, ?_⟩⟩
  have hmax : ¬ s.args[1].toNat > 4294967295 := by have := s.args[1].isLt; omega
  rw [commandEffect, wruintEffect_eq, if_neg hmax]
  split_ifs with hrange
  · have hlen := beBytes_length 4 s.args[1].toNat
    refine ⟨rfl, fun _ => ⟨completedWith_complete s _, memSameOutside_complete_oneWrite s rfl hlen, ?_⟩,
      fun h => absurd hrange h⟩
    have hbytes := (readBytes_complete_oneWrite s (e := { writes := [(s.args[0].toNat, _)] }) rfl hlen).trans
      (beBytes_four s.args[1])
    rw [State.readBytes_four] at hbytes
    simpa only [List.cons.injEq, and_true] using hbytes
  · obtain ⟨hcompleted, hmem, hres⟩ := complete_raiseError s .range
    exact ⟨hres, fun h => absurd h hrange, fun _ => ⟨hcompleted, hmem⟩⟩

/-- Settles O12: RES0 is the big-endian value of the four bytes at ARG0. -/
theorem rduintLoadsBigEndian : Obligations.RduintLoadsBigEndian := by
  refine ⟨decode_encode .rduint, fun s => ⟨_, exec_eq_complete .rduint s, complete_load_or_range s _ _ ?_⟩⟩
  rw [commandEffect, rduintEffect_eq, ofNat_beValue_readBytes_four]

/-- Settles O13: a checksum fits RES0. -/
theorem cksumComputesAdler : Obligations.CksumComputesAdler := by
  refine ⟨decode_encode .cksum, fun s => ⟨s.complete (cksumEffect s), exec_eq_complete .cksum s, ?_⟩⟩
  obtain ⟨hmem, hothers, hok, hrange⟩ := complete_load_or_range s _ _ (congrArg s.complete (cksumEffect_eq s))
  refine ⟨hmem, hothers, fun h => ?_, hrange⟩
  obtain ⟨hcompleted, hvalue⟩ := hok h
  exact ⟨hcompleted, by rw [hvalue, toNat_ofNat_adler32]⟩

/-! ### FRAME and SEAL (R125, R130) -/

/-- Settles O14: the checks in their order; past them the block is the sealed covered region. -/
theorem frameBuildsABlock : Obligations.FrameBuildsABlock := by
  refine ⟨decode_encode .frame, fun s => ⟨_, exec_eq_complete .frame s, ?_⟩⟩
  have hmax : ¬ s.args[2].toNat > 4294967295 := by have := s.args[2].isLt; omega
  -- Named, the effect occurs once, and the statement's checks and its own are split side by side.
  generalize he : commandEffect .frame s = e
  rw [commandEffect, frameEffect_eq, if_neg hmax] at he
  simp only [not_le, gt_iff_lt] at he ⊢
  split_ifs at he ⊢ with hord hsrc hdst hfit hoverlap <;> subst he
  · exact complete_raiseError_res0 s .range
  · exact complete_raiseError_res0 s .range
  · exact complete_raiseError_res0 s .range
  · exact complete_raiseError_res0 s .frameSize
  · exact complete_raiseError_res0 s .overlap
  · have hn := Memory.readBytes_length s.dmem s.args[1].toNat s.args[2].toNat
    have hblock := frameBlock_eq_sealRegion (BitVec.ofNat 8 s.args[4].toNat) hn s.args[3].toNat
    have hlen := frameBlock_length (BitVec.ofNat 8 s.args[4].toNat) _ s.args[3].toNat (by rw [hn]; exact not_lt.1 hfit)
    refine ⟨resSameExcept_complete_res0 s rfl, completedWith_complete s _,
      memSameOutside_complete_oneWrite s rfl hlen, (readBytes_complete_oneWrite s rfl hlen).trans hblock, ?_⟩
    rw [res0_complete s rfl, hblock, checksumField_seal, Config.ckW_val, beValue_beBytes_of_lt (adler32_lt _)]
    exact toNat_ofNat_adler32 _

/-- Settles O15: the checks in their order; past them the checksum goes to the last four bytes and to RES0. -/
theorem sealStoresTheChecksum : Obligations.SealStoresTheChecksum := by
  refine ⟨decode_encode .sealBlock, fun s => ⟨_, exec_eq_complete .sealBlock s, ?_⟩⟩
  rw [commandEffect, sealEffect_eq]
  simp only [not_le, gt_iff_lt]
  split_ifs with hrange hfit
  · exact complete_raiseError_res0 s .range
  · exact complete_raiseError_res0 s .frameSize
  · have hlen := beBytes_length 4 (adler32 (s.dmem.readBytes s.args[0].toNat (s.args[1].toNat - 4)))
    refine ⟨resSameExcept_complete_res0 s rfl, completedWith_complete s _,
      memSameOutside_complete_oneWrite s rfl hlen, readBytes_complete_oneWrite s rfl hlen, ?_⟩
    rw [res0_complete s rfl, toNat_ofNat_adler32]

/-! ### VALIDATE (R135) -/

/-- `Validate` of a block in DMEM (R102), each field read where it stands. -/
theorem validateBlock_readBytes (s : State) (a : Nat) {L : Nat} (h : 9 ≤ L) :
    validateBlock (s.dmem.readBytes a L) =
      { order := s.byteAt a, declared := beValue (s.dmem.readBytes (a + 1) 4)
        good := adler32 (s.dmem.readBytes a (L - 4)) == beValue (s.dmem.readBytes (a + L - 4) 4)
        comp := adler32 (s.dmem.readBytes a (L - 4)) } := by
  rw [validateBlock_of_length (by simpa using h), orderByte_readBytes s a (by omega),
    declaredLength_readBytes s a (by omega), coveredRegion_readBytes, checksumField_readBytes s.dmem a (by omega)]

/-- A checksum as a word is the word in the four bytes before `x` exactly when it is the number stored there. -/
theorem ofNat_adler32_eq_iff (s : State) (c : List Byte) {x : Nat} (h : 4 ≤ x) :
    BitVec.ofNat 32 (adler32 c) = s.byteAt (x - 4) ++ s.byteAt (x - 3) ++ s.byteAt (x - 2) ++ s.byteAt (x - 1) ↔
      adler32 c = beValue (s.dmem.readBytes (x - 4) 4) := by
  obtain ⟨y, rfl⟩ := Nat.exists_eq_add_of_le' h
  rw [← BitVec.toNat_inj, toNat_ofNat_adler32, beValue_readBytes_four]
  rfl

/-- VALIDATE of a region in DMEM completes with OK and reports `Validate` of its bytes in the four result registers. -/
theorem complete_validateEffect {s : State} (h : s.args[0].toNat + s.args[1].toNat ≤ 65536) {v : Validation}
    (hv : validateBlock (s.dmem.readBytes s.args[0].toNat s.args[1].toNat) = v) :
    CompletedWith s (s.complete (validateEffect s)) .ok ∧ MemSame s (s.complete (validateEffect s)) ∧
      (s.complete (validateEffect s)).res =
        #v[v.order.setWidth 32, BitVec.ofNat 32 v.declared, if v.good then 1 else 0, BitVec.ofNat 32 v.comp] := by
  subst hv
  rw [validateEffect_eq, if_neg (not_not_intro h)]
  exact ⟨completedWith_complete s _, memSame_complete s _ rfl, writeResults_all _ _ _ _ _⟩

/-- Settles O16: a block shorter than 9 bytes is reported by zeros, and a longer one by its fields. -/
theorem validateReportsTheBlock : Obligations.ValidateReportsTheBlock := by
  refine ⟨decode_encode .validate, fun s => ⟨s.complete (validateEffect s), exec_eq_complete .validate s, ?_⟩⟩
  by_cases hrange : s.args[0].toNat + s.args[1].toNat > 65536
  · obtain ⟨hcompleted, hmem, hres⟩ := complete_raiseError s .range
    rw [validateEffect_eq, if_pos (not_le.2 hrange)]
    refine ⟨hmem, ?_⟩
    rw [if_pos hrange]
    exact ⟨hcompleted, hres⟩
  by_cases hshort : s.args[1].toNat < 9
  · obtain ⟨hcompleted, hmem, hres⟩ := complete_validateEffect (not_lt.1 hrange)
      (validateBlock_of_short ((Memory.readBytes_length _ _ _).trans_lt hshort))
    refine ⟨hmem, ?_⟩
    rw [if_neg hrange, if_pos hshort]
    exact ⟨hcompleted, hres⟩
  · obtain ⟨hcompleted, hmem, hres⟩ := complete_validateEffect (not_lt.1 hrange)
      (validateBlock_readBytes s _ (not_lt.1 hshort))
    have hend : 4 ≤ s.args[0].toNat + s.args[1].toNat := by omega
    refine ⟨hmem, ?_⟩
    rw [if_neg hrange, if_neg hshort]
    simp only [hres]
    refine ⟨hcompleted, rfl, ofNat_beValue_readBytes_four s _, ?_, toNat_ofNat_adler32 _⟩
    exact if_congr (beq_iff_eq.trans (ofNat_adler32_eq_iff s _ hend).symm) rfl rfl

end Sys2Proof.Machine
end

