-- ==== Sys2Proof/Proofs/Codec.lean ====
section
/-! PROOFS. The codec (41_codec.md): XOR (R155), Encode and ENCODE (R160-R165), Decode and DECODE (R170-R183). -/

namespace Sys2Proof.Machine

/-! ### XOR (R155) -/

/-- Settles O17: the checks in their order; past them byte `k` written is the XOR of the sources' bytes. -/
theorem xorIsBytewise : Obligations.XorIsBytewise := by
  refine ⟨decode_encode .xor, fun s => ⟨_, exec_eq_complete .xor s, ?_⟩⟩
  -- Named, the effect occurs once, and the statement's checks and its own are split side by side.
  generalize he : commandEffect .xor s = e
  rw [commandEffect, xorEffect_eq] at he
  simp only [← ite_or, not_le] at he
  simp only [gt_iff_lt]
  split_ifs at he ⊢ with hrange hoverlap <;> subst he
  · obtain ⟨hcompleted, hmem, hres⟩ := complete_raiseError s .range
    exact ⟨hres, hcompleted, hmem⟩
  · obtain ⟨hcompleted, hmem, hres⟩ := complete_raiseError s .overlap
    exact ⟨hres, hcompleted, hmem⟩
  · refine ⟨rfl, completedWith_complete s _, memSameOutside_complete_oneWrite s rfl (by simp), fun k hk => ?_⟩
    have hbyte := Memory.read_writeBytes_inside s.dmem s.args[0].toNat k
      (xorBytes (s.dmem.readBytes s.args[1].toNat s.args[3].toNat) (s.dmem.readBytes s.args[2].toNat s.args[3].toNat))
      (by simpa using hk)
    rw [xorBytes_getElem?, Memory.readBytes_getElem? _ _ _ _ hk, Memory.readBytes_getElem? _ _ _ _ hk] at hbyte
    exact Option.some.inj hbyte

/-! ### The length field and the covered region of a sealed and a framed block (20_memory.md R55) -/

/-- Sealing a region leaves its length field alone. -/
theorem lengthField_seal {c : List Byte} (h : 5 ≤ c.length) : ((sealRegion c).drop 1).take 4 = (c.drop 1).take 4 := by
  rw [sealRegion, List.drop_append_of_le_length (by omega),
    List.take_append_of_le_length (by rw [List.length_drop]; omega)]

theorem declaredLength_seal {c : List Byte} (h : 5 ≤ c.length) : declaredLength (sealRegion c) = declaredLength c :=
  congrArg beValue (lengthField_seal h)

theorem lengthField_frameCovered (ord : Byte) (p : List Byte) (cap : Nat) :
    ((frameCovered ord p cap).drop 1).take 4 = beBytes 4 p.length := by
  simp [frameCovered]

/-- The bytes of a sealed block before its checksum. -/
theorem take_seal {c : List Byte} {L : Nat} (h : c.length + 4 = L) : (sealRegion c).take (L - 4) = c := by
  subst h
  rw [Nat.add_sub_cancel, sealRegion, List.take_left]

/-! ### The covered regions of a codeword (R160, R161) -/

section Codeword
variable (p : List Byte)

/-- Block X's covered region. -/
def covX : List Byte := xorBytes (covA p) (covB p)

theorem covX_length : (covX p).length = halfB p.length + 5 := by
  rw [covX, xorBytes_length, covA_length, covB_length, Nat.min_self]

theorem lengthField_covA : ((covA p).drop 1).take 4 = beBytes 4 (halfA p.length) := by
  have hle : halfA p.length ≤ p.length := Nat.div_le_self _ 2
  rw [covA, lengthField_frameCovered, List.length_take_of_le hle]

theorem lengthField_covB : ((covB p).drop 1).take 4 = beBytes 4 (halfB p.length) := by
  rw [covB, lengthField_frameCovered, List.length_drop, halfB]

/-- A is recovered from B and X (R173). -/
theorem xorBytes_covB_covX : xorBytes (covB p) (covX p) = covA p := by
  rw [covX, xorBytes_comm (covA p), xorBytes_cancel _ _ (by rw [covA_length, covB_length])]

/-- B is recovered from A and X (R173). -/
theorem xorBytes_covA_covX : xorBytes (covA p) (covX p) = covB p := by
  rw [covX, xorBytes_cancel _ _ (by rw [covA_length, covB_length])]

end Codeword

/-- A sealed region that holds a header is good. -/
theorem good_seal {c : List Byte} (h : 5 ≤ c.length) : (validateBlock (sealRegion c)).good = true := by
  rw [validateBlock_seal c h]

/-- Settles O19: (a) to (g) of R161, read off the three sealed regions. -/
theorem encodeInvariants : Obligations.EncodeInvariants := by
  refine ⟨fun p => ?_, by decide⟩
  have hX : (covX p).length = halfB p.length + 5 := covX_length p
  have hA := covA_length p
  have hB := covB_length p
  obtain ⟨hlenA, hlenB, hlenX⟩ := encodePayload_lengths p
  rw [blockLength_eq] at hlenA hlenB hlenX
  have hfieldX : ((covX p).drop 1).take 4 = beBytes 4 (halfA p.length ^^^ halfB p.length) := by
    rw [covX, xorBytes_drop, xorBytes_take, lengthField_covA, lengthField_covB, xorBytes_beBytes]
  have htakeA := take_seal (c := covA p) (L := halfB p.length + 9) (by omega)
  have htakeB := take_seal (c := covB p) (L := halfB p.length + 9) (by omega)
  have htakeX := take_seal (c := covX p) (L := halfB p.length + 9) (by omega)
  refine ⟨⟨hlenA, hlenB, hlenX⟩, ⟨by omega, by omega⟩, ⟨rfl, rfl, rfl⟩, ?_⟩
  rw [encodePayload_eq, ← covX]
  refine ⟨(lengthField_seal (by omega)).trans hfieldX, ?_, ?_, ?_, good_seal (by omega), good_seal (by omega),
    good_seal (by omega)⟩
  · exact htakeX.trans (congrArg₂ xorBytes htakeA htakeB).symm
  · exact htakeA.trans ((congrArg₂ xorBytes htakeB htakeX).trans (xorBytes_covB_covX p)).symm
  · exact htakeB.trans ((congrArg₂ xorBytes htakeA htakeX).trans (xorBytes_covA_covX p)).symm

/-! ### ENCODE (R165) -/

/-- Each of a command's writes stands in DMEM afterwards when no two of its regions share a byte. -/
theorem Memory.readBytes_writeAll_of_mem (m : Memory) {l : List (Nat × List Byte)}
    (hl : l.Pairwise fun d e => d.1 + d.2.length ≤ e.1 ∨ e.1 + e.2.length ≤ d.1) {a : Nat} {bytes : List Byte}
    (h : (a, bytes) ∈ l) : (m.writeAll l).readBytes a bytes.length = bytes := by
  induction l generalizing m with
  | nil => cases h
  | cons d rest ih =>
    obtain ⟨hd, hrest⟩ := List.pairwise_cons.1 hl
    rw [Memory.writeAll_cons]
    rcases List.mem_cons.1 h with rfl | h
    · rw [Memory.readBytes_congr _ (m.writeBytes a bytes) a bytes.length, Memory.readBytes_writeBytes_same]
      intro x hlo hhi
      refine Memory.read_writeAll_outside _ _ _ fun e he => ?_
      rcases hd e he with hdisj | hdisj <;> dsimp only at hdisj <;> omega
    · exact ih _ hrest h

/-- A command that writes three blocks of one length to regions that share no byte: what it leaves alone, and the blocks
as they then stand in DMEM. -/
theorem complete_threeWrites (s : State) {e : Effect} {dA dB dX L : Nat} {blkA blkB blkX : List Byte}
    (he : e.writes = [(dA, blkA), (dB, blkB), (dX, blkX)]) (hA : blkA.length = L) (hB : blkB.length = L)
    (hX : blkX.length = L) (hL : 0 < L)
    (hdisj : ¬ overlap dA L dB L ∧ ¬ overlap dA L dX L ∧ ¬ overlap dB L dX L) :
    (∀ x, ¬ (dA ≤ x ∧ x < dA + L) → ¬ (dB ≤ x ∧ x < dB + L) → ¬ (dX ≤ x ∧ x < dX + L) →
        (s.complete e).byteAt x = s.byteAt x) ∧
      (s.complete e).dmem.readBytes dA L = blkA ∧ (s.complete e).dmem.readBytes dB L = blkB ∧
      (s.complete e).dmem.readBytes dX L = blkX := by
  have hpair : e.writes.Pairwise fun d f => d.1 + d.2.length ≤ f.1 ∨ f.1 + f.2.length ≤ d.1 := by
    obtain ⟨hAB, hAX, hBX⟩ := hdisj
    simp [he, hA, hB, hX]
    omega
  have hread {a : Nat} {blk : List Byte} (hmem : (a, blk) ∈ e.writes) (hlen : blk.length = L) :
      (s.complete e).dmem.readBytes a L = blk := by
    rw [State.complete_dmem, ← hlen, Memory.readBytes_writeAll_of_mem _ hpair hmem]
  refine ⟨fun x hxA hxB hxX => byteAt_complete_outside s e x ?_, hread (by simp [he]) hA, hread (by simp [he]) hB,
    hread (by simp [he]) hX⟩
  rw [he]
  simp only [List.forall_mem_cons, hA, hB, hX]
  exact ⟨hxA, hxB, hxX, List.forall_mem_nil _⟩

/-- Three pairs in order write the first three result registers. -/
theorem writeResults_three (r : Vector Word 4) (a b c : Word) :
    writeResults r [(0, a), (1, b), (2, c)] = #v[a, b, c, r[3]] := by
  apply Vector.ext
  intro i hi
  obtain rfl | rfl | rfl | rfl : i = 0 ∨ i = 1 ∨ i = 2 ∨ i = 3 := by omega
  all_goals simp [writeResults]

theorem not_sizeOverflow (s : State) : ¬ halfB s.args[1].toNat > 4294967295 := by
  have := s.args[1].isLt
  have := halves s.args[1].toNat
  omega

/-- Settles O18: the checks in their order; past them the three blocks go to three regions that share no byte. -/
theorem encodeWritesTheCodeword : Obligations.EncodeWritesTheCodeword := by
  refine ⟨decode_encode .encode, fun s => ⟨_, exec_eq_complete .encode s, ?_⟩⟩
  generalize he : commandEffect .encode s = e
  rw [commandEffect, encodeEffect_eq, if_neg (not_sizeOverflow s), blockLength_eq] at he
  simp only [← ite_or, not_le, anyOverlap_four, halfB, halfA] at he
  simp only [gt_iff_lt]
  split_ifs at he ⊢ with hrange hoverlap
  · exact he ▸ complete_raiseError s .range
  · exact he ▸ complete_raiseError s .overlap
  · simp only [not_or] at hoverlap
    obtain ⟨-, -, -, hdisj⟩ := hoverlap
    have hlen := encodePayload_lengths (s.dmem.readBytes s.args[0].toNat s.args[1].toNat)
    rw [Memory.readBytes_length, blockLength_eq] at hlen
    obtain ⟨hA, hB, hX⟩ := hlen
    obtain ⟨hsame, hblkA, hblkB, hblkX⟩ :=
      complete_threeWrites s (congrArg Effect.writes he).symm hA hB hX (Nat.succ_pos _) hdisj
    refine ⟨?_, hsame, hblkA, hblkB, hblkX, ?_⟩ <;> subst he
    · exact completedWith_complete s _
    · exact writeResults_three _ _ _ _

/-! ### DECODE's failures before the decision table (R171, R176, R180) -/

/-- A failing DECODE completes with its code, leaves DMEM alone and reports its cause (R180). -/
theorem complete_decodeFailure (s : State) (e : ErrCode) (c : Cause) (map : Word) :
    CompletedWith s (s.complete (decodeFailure e c map)) e ∧ MemSame s (s.complete (decodeFailure e c map)) ∧
      (s.complete (decodeFailure e c map)).res = #v[0, 0, map, BitVec.ofNat 32 (causeCode c)] :=
  ⟨completedWith_complete s _, memSame_complete s _ rfl, complete_decodeFailure_res s e c map⟩

/-- A symmetric relation that holds of two distinct slots holds of one of the three pairs in slot order. -/
theorem exists_slotPair {P : Fin 3 → Fin 3 → Prop} (hsymm : ∀ i j, P i j → P j i) (h : ∃ i j, i ≠ j ∧ P i j) :
    P 0 1 ∨ P 0 2 ∨ P 1 2 := by
  obtain ⟨i, j, hij, hP⟩ := h
  have hP' := hsymm i j hP
  have hpairs : ∀ i j : Fin 3, i ≠ j → (i = 0 ∧ j = 1 ∨ i = 0 ∧ j = 2 ∨ i = 1 ∧ j = 2) ∨
      (j = 0 ∧ i = 1 ∨ j = 0 ∧ i = 2 ∨ j = 1 ∧ i = 2) := by decide
  rcases hpairs i j hij with (⟨rfl, rfl⟩ | ⟨rfl, rfl⟩ | ⟨rfl, rfl⟩) | ⟨rfl, rfl⟩ | ⟨rfl, rfl⟩ | ⟨rfl, rfl⟩
  all_goals simp only [hP, hP', true_or, or_true]

theorem claimOf_slot_ne_none {s : State} {i : Fin 3} (h : slotGood s i = true) :
    claimOf (validateBlock (slotBytes s i)) ≠ none := by
  simp [claimOf_slot_good h]

section Failures
variable {s : State}

/-- DECODE's first check, said of all three slots. -/
theorem slotLens_eq_iff : (slotLen s 0 = slotLen s 1 ∧ slotLen s 1 = slotLen s 2) ↔ ∀ i, slotLen s i = slotLen s 0 := by
  constructor
  · rintro ⟨h01, h12⟩ i
    match i with
    | 0 => rfl
    | 1 => exact h01.symm
    | 2 => exact (h01.trans h12).symm
  · exact fun h => ⟨(h 1).symm, (h 1).trans (h 2).symm⟩

theorem decodeEffect_of_lengthsDiffer (h : ¬ ∀ i, slotLen s i = slotLen s 0) :
    decodeEffect s = decodeFailure .sizeMismatch .lengthsDiffer emptySlotMap := by
  rw [decodeEffect_eq, if_pos (mt slotLens_eq_iff.1 h)]

theorem decodeEffect_of_outOfRange (hlen : ∀ i, slotLen s i = slotLen s 0)
    (h : ∃ i, slotAddr s i + slotLen s i > 65536) : decodeEffect s = decodeFailure .range .outOfRange emptySlotMap := by
  obtain ⟨i, hi⟩ := h
  have hout : ¬ (slotAddr s 0 + slotLen s 0 ≤ 65536 ∧ slotAddr s 1 + slotLen s 0 ≤ 65536 ∧
      slotAddr s 2 + slotLen s 0 ≤ 65536) := by
    rintro ⟨h0, h1, h2⟩
    rw [hlen i] at hi
    match i with
    | 0 => omega
    | 1 => omega
    | 2 => omega
  rw [decodeEffect_eq, if_neg (not_not_intro (slotLens_eq_iff.2 hlen)), if_pos hout]

theorem decodeEffect_of_classify_error (h : SlotsReadable s) {c : Cause}
    (hc : classify ((decodeSlots s).map validateBlock) = .error c) :
    decodeEffect s = decodeFailure .unrecoverable c (slotMap ((decodeSlots s).map validateBlock)) := by
  rw [decodeEffect_of_readable h, decodeBlocks, hc]

theorem classify_of_twoBad (hlen : ∀ i, slotLen s i = slotLen s 0)
    (h : ∃ i j, i ≠ j ∧ slotGood s i = false ∧ slotGood s j = false) :
    classify ((decodeSlots s).map validateBlock) = .error .fewGood := by
  rw [classify_eq_claims, decodeSlots_eq s hlen]
  refine classifyClaims_few _ _ _ ?_
  have hpair := exists_slotPair (P := fun i j => slotGood s i = false ∧ slotGood s j = false) (fun i j => And.symm) h
  exact hpair.imp (.imp claimOf_slot_bad claimOf_slot_bad)
    (.imp (.imp claimOf_slot_bad claimOf_slot_bad) (.imp claimOf_slot_bad claimOf_slot_bad))

theorem classify_of_conflict (hlen : ∀ i, slotLen s i = slotLen s 0)
    (hgood : ∀ i j, i ≠ j → slotGood s i = true ∨ slotGood s j = true)
    (h : ∃ i j r, i ≠ j ∧ slotClaims s i r ∧ slotClaims s j r) :
    classify ((decodeSlots s).map validateBlock) = .error .roleConflict := by
  have hsome (i j : Fin 3) (hij : i ≠ j) := (hgood i j hij).imp claimOf_slot_ne_none claimOf_slot_ne_none
  rw [classify_eq_claims, decodeSlots_eq s hlen]
  refine classifyClaims_conflict _ _ _ ⟨hsome 0 1 (by decide), hsome 0 2 (by decide), hsome 1 2 (by decide)⟩ ?_
  obtain ⟨i, j, r, hij, hi, hj⟩ := h
  refine exists_slotPair
    (P := fun i j => claimOf (validateBlock (slotBytes s i)) = claimOf (validateBlock (slotBytes s j)) ∧
      claimOf (validateBlock (slotBytes s i)) ≠ none)
    (fun i j ⟨heq, hne⟩ => ⟨heq.symm, heq ▸ hne⟩) ⟨i, j, hij, ?_, claimOf_slot_ne_none hi.1⟩
  rw [claimOf_slot_claims hi, claimOf_slot_claims hj]

end Failures

/-- Settles O20: the first two checks, and the two ways in which `Classify` fails. -/
theorem decodeFailuresAreReported : Obligations.DecodeFailuresAreReported := by
  refine fun s => ⟨s.complete (decodeEffect s), exec_eq_complete .decode s, fun h => ?_, fun hlen h => ?_,
    fun hs h => ?_, fun hs hgood h => ?_⟩
  · rw [decodeEffect_of_lengthsDiffer (mt slotLens_eq_iff.2 h)]
    exact complete_decodeFailure s _ _ _
  · rw [decodeEffect_of_outOfRange hlen h]
    exact complete_decodeFailure s _ _ _
  · have hc := classify_of_twoBad hs.1 h
    rw [decodeEffect_of_classify_error hs hc, slotMap_of_error hs.1 hc]
    exact complete_decodeFailure s _ _ _
  · have hc := classify_of_conflict hs.1 hgood h
    rw [decodeEffect_of_classify_error hs hc, slotMap_of_error hs.1 hc]
    exact complete_decodeFailure s _ _ _

/-! ### The decision table (R172-R174, R182) -/

theorem exists_slot_iff {P : Fin 3 → Prop} : (∃ i, P i) ↔ P 0 ∨ P 1 ∨ P 2 := by
  simp [Fin.exists_fin_succ]

/-- Slots A, B and X of DECODE stand at `iA`, `iB` and `iX`: the good ones claim these roles, and one at most is bad. -/
structure SlotsAt (s : State) (iA iB iX : Fin 3) : Prop where
  readable : SlotsReadable s
  neAB : iA ≠ iB
  neAX : iA ≠ iX
  neBX : iB ≠ iX
  claimsA : slotGood s iA = true → slotClaims s iA .a
  claimsB : slotGood s iB = true → slotClaims s iB .b
  claimsX : slotGood s iX = true → slotClaims s iX .x
  twoGood : ∀ i j, i ≠ j → slotGood s i = true ∨ slotGood s j = true

theorem declared_slot {s : State} {i : Fin 3} (hi : slotGood s i = true) :
    (validateBlock (slotBytes s i)).declared = declaredLength (slotBytes s i) := by
  rw [validateBlock_of_length (length_of_good hi)]

section SlotsAt
variable {s : State} {iA iB iX : Fin 3} (h : SlotsAt s iA iB iX)
include h

theorem SlotsAt.classify : classify ((decodeSlots s).map validateBlock) = .ok (rolesAt iA iB) :=
  classify_slots h.readable.1 h.neAB h.neAX h.neBX h.claimsA h.claimsB h.claimsX h.twoGood

theorem SlotsAt.nine_le : 9 ≤ slotLen s 0 := by
  have hlen {i : Fin 3} (hi : slotGood s i = true) : 9 ≤ slotLen s 0 :=
    slotBytes_length h.readable.1 i ▸ length_of_good hi
  exact (h.twoGood iA iB h.neAB).elim hlen hlen

/-- DECODE's ends for the row of the decision table that the slots select. -/
theorem SlotsAt.decodeEnds {r : Recovery}
    (hr : recover (decodeSlots s) ((decodeSlots s).map validateBlock) (rolesAt iA iB) = r)
    (hA : slotLen s 0 ≤ r.fromA.length + 4) (hB : slotLen s 0 ≤ r.fromB.length + 4) :
    DecodeEnds s r.lenA r.lenB r.fromA r.fromB (brokenWord r.broken)
      (BitVec.ofNat 32 (goodMask s + 2 ^ 8 * (4 ^ iB.val + 2 * 4 ^ iX.val))) := by
  have hmap := slotMap_slots h.readable.1 h.neAB h.neAX h.neBX h.classify
  have hL := h.nine_le
  refine ⟨_, exec_eq_complete .decode s, ?_⟩
  generalize he : commandEffect .decode s = e
  rw [commandEffect, decodeEffect_of_roles h.readable h.classify hr, hmap] at he
  simp only [not_le, Nat.sub_sub] at he
  simp only [exists_slot_iff]
  split_ifs at he ⊢ with hcap hrange hoverlap <;> subst he
  · exact complete_decodeFailure s _ _ _
  · exact complete_decodeFailure s _ _ _
  · exact complete_decodeFailure s _ _ _
  · have hlen : (payloadSlice r.fromA r.lenA ++ payloadSlice r.fromB r.lenB).length = r.lenA + r.lenB := by
      rw [List.length_append, payloadSlice_length _ _ (by simp; omega), payloadSlice_length _ _ (by simp; omega)]
    exact ⟨completedWith_complete s _, memSameOutside_complete_oneWrite s rfl hlen,
      readBytes_complete_oneWrite s rfl hlen, writeResults_all _ _ _ _ _⟩

end SlotsAt

/-- With two good slots, one slot at most is bad. -/
theorem twoGood_of_good {s : State} {i j k : Fin 3} (hij : i ≠ j) (hik : i ≠ k) (hjk : j ≠ k)
    (hi : slotGood s i = true) (hj : slotGood s j = true) (m n : Fin 3) (hmn : m ≠ n) :
    slotGood s m = true ∨ slotGood s n = true := by
  rcases fin3_cases hij hik hjk m with rfl | rfl | rfl
  · exact .inl hi
  · exact .inl hj
  · rcases fin3_cases hij hik hjk n with rfl | rfl | rfl
    · exact .inr hi
    · exact .inr hj
    · exact absurd rfl hmn

theorem slotLen_le_slotBytes {s : State} (hs : ∀ i, slotLen s i = slotLen s 0) (i : Fin 3) :
    slotLen s 0 ≤ (slotBytes s i).length + 4 := by
  rw [slotBytes_length hs]
  exact Nat.le_add_right _ 4

theorem slotLen_le_rebuilt {s : State} (hs : ∀ i, slotLen s i = slotLen s 0) (i j : Fin 3) :
    slotLen s 0 ≤
      (xorBytes ((slotBytes s i).take (slotLen s 0 - 4)) ((slotBytes s j).take (slotLen s 0 - 4))).length + 4 := by
  simp only [xorBytes_length, List.length_take, slotBytes_length hs]
  omega

/-- Settles O21: with A and B good the table cuts the payload from their blocks, whatever X holds. -/
theorem decodeFastPath : Obligations.DecodeFastPath := by
  intro s iA iB iX hs hAB hAX hBX hA hB hX
  have h : SlotsAt s iA iB iX :=
    ⟨hs, hAB, hAX, hBX, fun _ => hA, fun _ => hB, hX, twoGood_of_good hAB hAX hBX hA.1 hB.1⟩
  have hr := recover_slots hs.1 hAB hAX hBX
  rw [if_neg (not_not_intro hB.1), if_neg (not_not_intro hA.1), declared_slot hA.1, declared_slot hB.1] at hr
  have hends := h.decodeEnds hr (slotLen_le_slotBytes hs.1 iA) (slotLen_le_slotBytes hs.1 iB)
  rwa [apply_ite brokenWord] at hends

/-- Settles O22: with B bad the table cuts its part from the XOR of the two good covered regions. -/
theorem decodeRebuildsB : Obligations.DecodeRebuildsB := by
  intro s iA iB iX hs hAB hAX hBX hA hB hX
  have h : SlotsAt s iA iB iX :=
    ⟨hs, hAB, hAX, hBX, fun _ => hA, fun hgood => absurd hgood (by simp [hB]), fun _ => hX,
      twoGood_of_good hAX hAB hBX.symm hA.1 hX.1⟩
  have hr := recover_slots hs.1 hAB hAX hBX
  rw [if_pos (by simp [hB]), declared_slot hA.1] at hr
  exact h.decodeEnds hr (slotLen_le_slotBytes hs.1 iA) (slotLen_le_rebuilt hs.1 iA iX)

/-- Settles O23: with A bad the table cuts its part from the XOR of the two good covered regions. -/
theorem decodeRebuildsA : Obligations.DecodeRebuildsA := by
  intro s iA iB iX hs hAB hAX hBX hA hB hX
  have h : SlotsAt s iA iB iX :=
    ⟨hs, hAB, hAX, hBX, fun hgood => absurd hgood (by simp [hA]), fun _ => hB, fun _ => hX,
      twoGood_of_good hBX hAB.symm hAX.symm hB.1 hX.1⟩
  have hr := recover_slots hs.1 hAB hAX hBX
  rw [if_neg (not_not_intro hB.1), if_pos (by simp [hA]), declared_slot hB.1] at hr
  exact h.decodeEnds hr (slotLen_le_rebuilt hs.1 iB iX) (slotLen_le_slotBytes hs.1 iB)

/-! ### The parts of a payload in the blocks of a codeword (R160) -/

/-- A block, or its covered region alone, declares the length of `part` and holds `part` as its payload slice. -/
def Carries (blk part : List Byte) : Prop := declaredLength blk = part.length ∧ payloadSlice blk part.length = part

theorem carries_frameCovered (ord : Byte) {part : List Byte} (cap : Nat) (h : part.length ≤ Config.maxLen) :
    Carries (frameCovered ord part cap) part :=
  ⟨declaredLength_frameCovered ord part cap h, payloadSlice_frameCovered ord part cap⟩

/-- Sealing a region leaves what it carries alone. -/
theorem Carries.seal {c part : List Byte} (h : Carries c part) (hlen : 5 + part.length ≤ c.length) :
    Carries (sealRegion c) part := by
  obtain ⟨hdeclared, hslice⟩ := h
  exact ⟨(declaredLength_seal (by omega)).trans hdeclared, (payloadSlice_seal c _ hlen).trans hslice⟩

theorem orderByte_seal {c : List Byte} (h : 5 ≤ c.length) : orderByte (sealRegion c) = orderByte c :=
  congrArg Validation.order
    ((validateBlock_of_length (by simp; omega)).symm.trans (validateBlock_seal c h))

/-- A slot that holds a sealed region claims the role of the region's order byte. -/
theorem slotClaims_of_seal {s : State} {i : Fin 3} {c : List Byte} (hi : slotBytes s i = sealRegion c)
    (hc : 5 ≤ c.length) : slotClaims s i (claimedRole (orderByte c)) := by
  rw [slotClaims, slotGood, hi, orderByte_seal hc]
  exact ⟨good_seal hc, rfl⟩

/-! ### The payload delivered (R180, R183) -/

/-- DECODE completes with OK, writes `p` at its destination and nothing else, and reports `res1` in RES1. -/
def Delivers (s : State) (p : List Byte) (res1 : Word) : Prop :=
  ∃ t, exec .decode s = .next t ∧ CompletedWith s t .ok ∧ MemSameOutside s t s.args[6].toNat p.length ∧
    t.dmem.readBytes s.args[6].toNat p.length = p ∧ t.res[0].toNat = p.length ∧ t.res[3] = 0 ∧ t.res[1] = res1

/-- Two sequences that carry the two parts of a payload, when the payload fits the blocks and the destination. -/
theorem delivers_of_decodeEnds {s : State} {fromA fromB partA partB : List Byte} {res1 res2 : Word}
    (h : DecodeEnds s (declaredLength fromA) (declaredLength fromB) fromA fromB res1 res2)
    (hA : Carries fromA partA) (hB : Carries fromB partB) (hcapA : partA.length + 9 ≤ slotLen s 0)
    (hcapB : partB.length + 9 ≤ slotLen s 0)
    (hdst : s.args[6].toNat + (partA ++ partB).length ≤ Config.dmemSize)
    (hclear : ∀ i, ¬ overlap s.args[6].toNat (partA ++ partB).length (slotAddr s i) (slotLen s 0)) :
    Delivers s (partA ++ partB) res1 := by
  obtain ⟨hlenA, hsliceA⟩ := hA
  obtain ⟨hlenB, hsliceB⟩ := hB
  obtain ⟨t, hexec, hend⟩ := h
  simp only [hlenA, hlenB, ← List.length_append] at hend
  rw [if_neg (by omega), if_neg (by omega), if_neg (not_exists.2 hclear)] at hend
  obtain ⟨hcompleted, hsame, hread, hres⟩ := hend
  have hfits : (partA ++ partB).length < 2 ^ 32 := by
    rw [Config.dmemSize_val] at hdst
    omega
  refine ⟨t, hexec, hcompleted, hsame, hread.trans (congrArg₂ _ hsliceA hsliceB), ?_⟩
  rw [hres]
  exact ⟨Nat.mod_eq_of_lt hfits, rfl, rfl⟩

/-- The slots hold the three blocks of `Encode(p)` except that one at most is bad, and the destination has room for `p`
clear of them: the premises of R183. -/
structure SlotsHold (s : State) (p : List Byte) (iA iB iX : Fin 3) : Prop where
  readable : SlotsReadable s
  length : slotLen s 0 = blockLength p.length
  neAB : iA ≠ iB
  neAX : iA ≠ iX
  neBX : iB ≠ iX
  holdsA : slotGood s iA = true → slotBytes s iA = (encodePayload p).blkA
  holdsB : slotGood s iB = true → slotBytes s iB = (encodePayload p).blkB
  holdsX : slotGood s iX = true → slotBytes s iX = (encodePayload p).blkX
  twoGood : ∀ i j, i ≠ j → slotGood s i = true ∨ slotGood s j = true
  dstInRange : s.args[6].toNat + p.length ≤ Config.dmemSize
  dstClear : ∀ i, ¬ overlap s.args[6].toNat p.length (slotAddr s i) (slotLen s 0)

namespace SlotsHold
variable {s : State} {p : List Byte} {iA iB iX : Fin 3} (h : SlotsHold s p iA iB iX)
include h

theorem bytesA (hA : slotGood s iA = true) : slotBytes s iA = sealRegion (covA p) := by
  rw [h.holdsA hA, encodePayload_eq]

theorem bytesB (hB : slotGood s iB = true) : slotBytes s iB = sealRegion (covB p) := by
  rw [h.holdsB hB, encodePayload_eq]

theorem bytesX (hX : slotGood s iX = true) : slotBytes s iX = sealRegion (covX p) := by
  rw [h.holdsX hX, encodePayload_eq, covX]

theorem slotLen_eq : slotLen s 0 = halfB p.length + 9 := h.length.trans (blockLength_eq _)

theorem claimsA (hA : slotGood s iA = true) : slotClaims s iA .a :=
  slotClaims_of_seal (h.bytesA hA) (by rw [covA_length]; omega)

theorem claimsB (hB : slotGood s iB = true) : slotClaims s iB .b :=
  slotClaims_of_seal (h.bytesB hB) (by rw [covB_length]; omega)

theorem claimsX (hX : slotGood s iX = true) : slotClaims s iX .x :=
  slotClaims_of_seal (h.bytesX hX) (by rw [covX_length]; omega)

theorem coveredA (hA : slotGood s iA = true) : (slotBytes s iA).take (slotLen s 0 - 4) = covA p := by
  rw [h.bytesA hA, take_seal (by rw [covA_length, h.slotLen_eq])]

theorem coveredB (hB : slotGood s iB = true) : (slotBytes s iB).take (slotLen s 0 - 4) = covB p := by
  rw [h.bytesB hB, take_seal (by rw [covB_length, h.slotLen_eq])]

theorem coveredX (hX : slotGood s iX = true) : (slotBytes s iX).take (slotLen s 0 - 4) = covX p := by
  rw [h.bytesX hX, take_seal (by rw [covX_length, h.slotLen_eq])]

theorem length_le_maxLen : p.length ≤ Config.maxLen := by
  have hdst := h.dstInRange
  rw [Config.dmemSize_val] at hdst
  rw [Config.maxLen_val]
  omega

theorem carries_covA : Carries (covA p) (p.take (halfA p.length)) :=
  carries_frameCovered _ _ ((List.length_take_le' _ _).trans h.length_le_maxLen)

theorem carries_covB : Carries (covB p) (p.drop (halfA p.length)) :=
  carries_frameCovered _ _ ((List.length_drop ▸ Nat.sub_le _ _).trans h.length_le_maxLen)

theorem carries_slotA (hA : slotGood s iA = true) : Carries (slotBytes s iA) (p.take (halfA p.length)) := by
  rw [h.bytesA hA]
  refine h.carries_covA.seal ?_
  have := halves p.length
  rw [covA_length, List.length_take]
  omega

theorem carries_slotB (hB : slotGood s iB = true) : Carries (slotBytes s iB) (p.drop (halfA p.length)) := by
  rw [h.bytesB hB]
  refine h.carries_covB.seal ?_
  have := halves p.length
  rw [covB_length, List.length_drop]
  omega

/-- Two sequences that carry the two halves of the payload deliver it. -/
theorem delivers {fromA fromB : List Byte} {res1 res2 : Word}
    (hends : DecodeEnds s (declaredLength fromA) (declaredLength fromB) fromA fromB res1 res2)
    (hA : Carries fromA (p.take (halfA p.length))) (hB : Carries fromB (p.drop (halfA p.length))) :
    Delivers s p res1 := by
  have hhalves := halves p.length
  have hL := h.slotLen_eq
  have hsplit := List.take_append_drop (halfA p.length) p
  rw [← hsplit]
  refine delivers_of_decodeEnds hends hA hB ?_ ?_ (hsplit.symm ▸ h.dstInRange) (hsplit.symm ▸ h.dstClear)
  · rw [List.length_take]
    omega
  · rw [List.length_drop]
    omega

theorem delivers_of_goodAB (hA : slotGood s iA = true) (hB : slotGood s iB = true) :
    Delivers s p (if slotGood s iX then 0 else BitVec.ofNat 32 (0x120 + iX.val)) :=
  h.delivers (decodeFastPath s iA iB iX h.readable h.neAB h.neAX h.neBX (h.claimsA hA) (h.claimsB hB) h.claimsX)
    (h.carries_slotA hA) (h.carries_slotB hB)

theorem delivers_of_badB (hB : slotGood s iB = false) : Delivers s p (BitVec.ofNat 32 (0x110 + iB.val)) := by
  have hA := (h.twoGood iA iB h.neAB).resolve_right (by simp [hB])
  have hX := (h.twoGood iX iB h.neBX.symm).resolve_right (by simp [hB])
  have hends := decodeRebuildsB s iA iB iX h.readable h.neAB h.neAX h.neBX (h.claimsA hA) hB (h.claimsX hX)
  simp only [h.coveredA hA, h.coveredX hX, xorBytes_covA_covX] at hends
  exact h.delivers hends (h.carries_slotA hA) h.carries_covB

theorem delivers_of_badA (hA : slotGood s iA = false) : Delivers s p (BitVec.ofNat 32 (0x100 + iA.val)) := by
  have hB := (h.twoGood iB iA h.neAB.symm).resolve_right (by simp [hA])
  have hX := (h.twoGood iX iA h.neAX.symm).resolve_right (by simp [hA])
  have hends := decodeRebuildsA s iA iB iX h.readable h.neAB h.neAX h.neBX hA (h.claimsB hB) (h.claimsX hX)
  simp only [h.coveredB hB, h.coveredX hX, xorBytes_covB_covX] at hends
  exact h.delivers hends h.carries_covA (h.carries_slotB hB)

end SlotsHold

/-- Settles O24: one case per row of the decision table. -/
theorem decodeRecoversThePayload : Obligations.DecodeRecoversThePayload := by
  intro s p iA iB iX hs hL hAB hAX hBX hA hB hX hgood hdst hclear
  have h : SlotsHold s p iA iB iX := ⟨hs, hL, hAB, hAX, hBX, hA, hB, hX, hgood, hdst, hclear⟩
  show Delivers s p _
  by_cases hgA : slotGood s iA = false
  · rw [if_pos hgA]
    exact h.delivers_of_badA hgA
  by_cases hgB : slotGood s iB = false
  · rw [if_neg hgA, if_pos hgB]
    exact h.delivers_of_badB hgB
  · rw [if_neg hgA, if_neg hgB]
    have hends := h.delivers_of_goodAB (eq_true_of_ne_false hgA) (eq_true_of_ne_false hgB)
    cases hgX : slotGood s iX <;> simpa [hgX] using hends

/-! ### ENCODE, then DECODE (R183 (a)) -/

/-- An ENCODE that completes with OK has passed its checks: the destinations are in DMEM and hold the three blocks. -/
theorem encode_ok {s t : State} (hexec : exec .encode s = .next t) (hok : t.err = .ok) :
    let n := s.args[1].toNat
    let p := s.dmem.readBytes s.args[0].toNat n
    (s.args[2].toNat + blockLength n ≤ 65536 ∧ s.args[3].toNat + blockLength n ≤ 65536 ∧
      s.args[4].toNat + blockLength n ≤ 65536) ∧
    t.dmem.readBytes s.args[2].toNat (blockLength n) = (encodePayload p).blkA ∧
    t.dmem.readBytes s.args[3].toNat (blockLength n) = (encodePayload p).blkB ∧
    t.dmem.readBytes s.args[4].toNat (blockLength n) = (encodePayload p).blkX ∧
    t.res[0].toNat = blockLength n := by
  have hL := blockLength_eq s.args[1].toNat
  rw [halfB, halfA] at hL
  obtain ⟨t', ht', hend⟩ := encodeWritesTheCodeword.2 s
  obtain rfl : t' = t := by rw [hexec] at ht'; cases ht'; rfl
  dsimp only at hend ⊢
  rw [hL]
  split_ifs at hend with hrange hoverlap
  · obtain ⟨hcompleted, -⟩ := hend
    exact absurd (hcompleted.err.symm.trans hok) (by decide)
  · obtain ⟨hcompleted, -⟩ := hend
    exact absurd (hcompleted.err.symm.trans hok) (by decide)
  · obtain ⟨-, -, hA, hB, hX, hres⟩ := hend
    refine ⟨by omega, hA, hB, hX, ?_⟩
    rw [hres]
    exact Nat.mod_eq_of_lt (by omega)

/-- The three blocks of a codeword are good (R161 (f)). -/
theorem good_encodePayload (p : List Byte) :
    (validateBlock (encodePayload p).blkA).good = true ∧ (validateBlock (encodePayload p).blkB).good = true ∧
      (validateBlock (encodePayload p).blkX).good = true := by
  obtain ⟨-, -, -, -, -, -, -, hgood⟩ := encodeInvariants.1 p
  exact hgood

/-- Settles O25: every slot of the DECODE is good and holds its block of the codeword. -/
theorem encodeThenDecodeReturnsThePayload : Obligations.EncodeThenDecodeReturnsThePayload := by
  intro s t u iA iB iX hexec hok hmem hAB hAX hBX haA haB haX hlen hdst hclear
  obtain ⟨⟨hrA, hrB, hrX⟩, hA, hB, hX, hres⟩ := encode_ok hexec hok
  rw [hres] at hlen
  -- The three destinations are DECODE's slots.
  have hslot {i : Fin 3} {a : Nat} {blk : List Byte} (ha : slotAddr u i = a)
      (h : t.dmem.readBytes a (blockLength s.args[1].toNat) = blk) : slotBytes u i = blk := by
    rw [slotBytes, ha, hlen, hmem, h]
  have hbytesA := hslot haA hA
  have hbytesB := hslot haB hB
  have hbytesX := hslot haX hX
  have hrange : ∀ i, slotAddr u i + slotLen u i ≤ Config.dmemSize := by
    simp only [hlen]
    exact forall_fin3_of_distinct hAB hAX hBX (haA ▸ hrA) (haB ▸ hrB) (haX ▸ hrX)
  have hgood : ∀ i, slotGood u i = true := by
    obtain ⟨hgA, hgB, hgX⟩ := good_encodePayload (s.dmem.readBytes s.args[0].toNat s.args[1].toNat)
    refine forall_fin3_of_distinct hAB hAX hBX ?_ ?_ ?_
    · rwa [slotGood, hbytesA]
    · rwa [slotGood, hbytesB]
    · rwa [slotGood, hbytesX]
  have hn := Memory.readBytes_length s.dmem s.args[0].toNat s.args[1].toNat
  have hdelivers := decodeRecoversThePayload u _ iA iB iX ⟨fun i => (hlen i).trans (hlen 0).symm, hrange⟩
    ((hlen 0).trans (congrArg blockLength hn.symm)) hAB hAX hBX (fun _ => hbytesA) (fun _ => hbytesB)
    (fun _ => hbytesX) (fun i _ _ => .inl (hgood i)) (by rwa [hn]) (by rwa [hn])
  simp only [hn, hgood, reduceCtorEq, if_false] at hdelivers
  obtain ⟨v, hexecv, hcompleted, -, hread, hres0, hres3, hres1⟩ := hdelivers
  exact ⟨v, hexecv, hcompleted, hread, BitVec.eq_of_toNat_eq hres0, hres1, hres3⟩

/-! ### Decode on permuted slots (R181) -/

/-- The value of slot `σ i` in slot `i`. -/
def Triple.permute {α : Type} (t : Triple α) (σ : Equiv.Perm (Fin 3)) : Triple α :=
  ⟨t.get (σ 0), t.get (σ 1), t.get (σ 2)⟩

theorem Triple.ext_get {α : Type} {t t' : Triple α} (h : ∀ i, t.get i = t'.get i) : t = t' := by
  have h0 := h 0
  have h1 := h 1
  have h2 := h 2
  cases t
  cases t'
  simp_all [Triple.get]

@[simp] theorem Triple.get_map {α β : Type} (f : α → β) (t : Triple α) (i : Fin 3) : (t.map f).get i = f (t.get i) := by
  match i with
  | 0 => rfl
  | 1 => rfl
  | 2 => rfl

section Permute
variable {α : Type} (σ : Equiv.Perm (Fin 3))

@[simp] theorem Triple.get_permute (t : Triple α) (i : Fin 3) : (t.permute σ).get i = t.get (σ i) := by
  match i with
  | 0 => rfl
  | 1 => rfl
  | 2 => rfl

theorem Triple.map_permute {β : Type} (f : α → β) (t : Triple α) : (t.permute σ).map f = (t.map f).permute σ :=
  Triple.ext_get fun i => by simp

theorem Triple.toList_eq_map_get (t : Triple α) : t.toList = (List.finRange 3).map t.get := rfl

theorem Triple.toList_permute_perm (t : Triple α) : (t.permute σ).toList.Perm t.toList := by
  have hget : (t.permute σ).get = t.get ∘ σ := funext (t.get_permute σ)
  rw [Triple.toList_eq_map_get, Triple.toList_eq_map_get, hget, ← List.map_map]
  exact σ.map_finRange_perm.map t.get

/-- The missing role depends only on which roles are claimed. -/
theorem missingRole_perm {l l' : List Role} (h : l.Perm l') : missingRole l = missingRole l' := by
  simp only [missingRole, h.mem_iff]

/-- `Classify` on permuted slots fails for the same cause, or assigns the same roles at the permuted indices. -/
theorem classify_permute (v : Triple Validation) :
    classify (v.permute σ) = (classify v).map fun role => role.permute σ := by
  have hperm : (goodClaims (v.permute σ)).Perm (goodClaims v) := by
    rw [goodClaims, goodClaims, Triple.map_permute]
    exact ((v.map claimOf).toList_permute_perm σ).filterMap id
  simp only [classify, hperm.length_eq, hperm.nodup_iff, missingRole_perm hperm, Triple.map_permute]
  split_ifs <;> rfl

theorem roleCode_some_inj {r r' : Role} : roleCode (some r) = roleCode (some r') ↔ r = r' := by
  cases r <;> cases r' <;> simp [roleCode]

theorem roleCode_some_lt (r : Role) : roleCode (some r) < 3 := by
  cases r <;> decide

/-- There is one role beside two distinct ones. -/
theorem role_eq_of_ne {r₀ r₁ r r' : Role} (h : r₀ ≠ r₁) (h₀ : r ≠ r₀) (h₁ : r ≠ r₁) (h₀' : r' ≠ r₀) (h₁' : r' ≠ r₁) :
    r = r' := by
  have := roleCode_some_lt r₀
  have := roleCode_some_lt r₁
  have := roleCode_some_lt r
  have := roleCode_some_lt r'
  rw [ne_eq, ← roleCode_some_inj] at h h₀ h₁ h₀' h₁'
  rw [← roleCode_some_inj]
  omega

/-- Under an assignment of three distinct roles every role has its slot. -/
theorem get_slotOf {role : Triple Role} (h : Function.Injective role.get) (r : Role) :
    role.get (slotOf role r) = r := by
  unfold slotOf
  split_ifs with h0 h1
  · exact h0
  · exact h1
  · exact role_eq_of_ne (h.ne (by decide : (0 : Fin 3) ≠ 1)) (h.ne (by decide : (2 : Fin 3) ≠ 0))
      (h.ne (by decide : (2 : Fin 3) ≠ 1)) (Ne.symm h0) (Ne.symm h1)

theorem slotOf_permute {role : Triple Role} (h : Function.Injective role.get) (r : Role) :
    slotOf (role.permute σ) r = σ.symm (slotOf role r) := by
  have hget : (role.permute σ).get = role.get ∘ σ := funext (role.get_permute σ)
  have hinj : Function.Injective (role.permute σ).get := hget ▸ h.comp σ.injective
  refine hinj ?_
  rw [get_slotOf hinj, Triple.get_permute, σ.apply_symm_apply, get_slotOf h]

/-- The roles that `Classify` assigns are distinct. -/
theorem injective_of_classify {v : Triple Validation} {role : Triple Role} (h : classify v = .ok role) :
    Function.Injective role.get := by
  obtain ⟨⟨h01, h02, h12⟩, -⟩ := classifyClaims_ok_roles ((classify_eq_claims v).symm.trans h)
  intro i j hij
  match i, j with
  | 0, 0 | 1, 1 | 2, 2 => rfl
  | 0, 1 => exact absurd hij h01
  | 1, 0 => exact absurd hij.symm h01
  | 0, 2 => exact absurd hij h02
  | 2, 0 => exact absurd hij.symm h02
  | 1, 2 => exact absurd hij h12
  | 2, 1 => exact absurd hij.symm h12

/-- The broken block at its permuted index. -/
def permuteBroken (b : Option (Fin 3 × Role)) : Option (Fin 3 × Role) := b.map fun p => (σ.symm p.1, p.2)

theorem permuteBroken_eq_some_iff (b : Option (Fin 3 × Role)) (i : Fin 3) (r : Role) :
    permuteBroken σ b = some (i, r) ↔ b = some (σ i, r) := by
  cases b with
  | none => simp [permuteBroken]
  | some p => simp [permuteBroken, Prod.ext_iff, Equiv.symm_apply_eq]

theorem permuteBroken_eq_none_iff (b : Option (Fin 3 × Role)) : permuteBroken σ b = none ↔ b = none :=
  Option.map_eq_none_iff

/-- The decision table selects the same row. -/
theorem recover_permute (blk : Triple (List Byte)) (v : Triple Validation) {role : Triple Role}
    (h : Function.Injective role.get) :
    recover (blk.permute σ) (v.permute σ) (role.permute σ) =
      { recover blk v role with broken := permuteBroken σ (recover blk v role).broken } := by
  simp only [recover, slotOf_permute σ h, Triple.get_permute, Equiv.apply_symm_apply]
  split_ifs <;> rfl

/-- R181 of the pure function: `Decode` of permuted slots fails for the same cause, or returns the same payload and the
same broken block at its permuted index. -/
theorem decodeBlocks_permute (L : Nat) (blk : Triple (List Byte)) :
    decodeBlocks L (blk.permute σ) =
      (decodeBlocks L blk).map fun d => { d with broken := permuteBroken σ d.broken } := by
  unfold decodeBlocks
  rw [Triple.map_permute, classify_permute]
  cases hc : classify (blk.map validateBlock) with
  | error c => rfl
  | ok role =>
    simp only [Except.map, recover_permute σ blk _ (injective_of_classify hc), finishDecode]
    split_ifs <;> rfl

/-! ### RES1 and RES2 at permuted indices (R176, R181) -/

theorem roleCode_le (r : Option Role) : roleCode r ≤ 3 := by
  rcases r with _ | _ | _ | _ <;> decide

theorem slotMapWord_toNat (good : Triple Bool) (role : Triple (Option Role)) :
    (slotMapWord good role).toNat = (good.get 0).toNat + (good.get 1).toNat * 2 + (good.get 2).toNat * 4 +
      roleCode (role.get 0) * 256 + roleCode (role.get 1) * 1024 + roleCode (role.get 2) * 4096 := by
  have hgood (i : Fin 3) : (good.get i).toNat < 2 := Bool.toNat_lt _
  have hrole (i : Fin 3) := roleCode_le (role.get i)
  have := hgood 0
  have := hgood 1
  have := hgood 2
  have := hrole 0
  have := hrole 1
  have := hrole 2
  rw [slotMapWord, BitVec.toNat_ofNat]
  exact Nat.mod_eq_of_lt (by simp only [Triple.get] at *; omega)

/-- RES2[2:0]: bit `i` tells whether slot `i` is good. -/
theorem slotMapWord_getLsbD (good : Triple Bool) (role : Triple (Option Role)) (i : Fin 3) :
    (slotMapWord good role).getLsbD i.val = good.get i := by
  have hgood (k : Fin 3) : (good.get k).toNat < 2 := Bool.toNat_lt _
  have := hgood 0
  have := hgood 1
  have := hgood 2
  have hbit : (slotMapWord good role).toNat / 2 ^ i.val % 2 = (good.get i).toNat := by
    rw [slotMapWord_toNat]
    match i with
    | 0 => simp; omega
    | 1 => simp; omega
    | 2 => simp; omega
  rw [← BitVec.testBit_toNat, Nat.testBit_eq_decide_div_mod_eq, hbit]
  cases good.get i <;> rfl

/-- RES2[13:8]: the role code of slot `i`. -/
theorem slotMapWord_extractLsb' (good : Triple Bool) (role : Triple (Option Role)) (i : Fin 3) :
    (slotMapWord good role).extractLsb' (8 + 2 * i.val) 2 = BitVec.ofNat 2 (roleCode (role.get i)) := by
  have hgood (k : Fin 3) : (good.get k).toNat < 2 := Bool.toNat_lt _
  have := hgood 0
  have := hgood 1
  have := hgood 2
  have := roleCode_le (role.get 0)
  have := roleCode_le (role.get 1)
  have := roleCode_le (role.get 2)
  apply BitVec.eq_of_toNat_eq
  rw [BitVec.extractLsb'_toNat, slotMapWord_toNat, Nat.shiftRight_eq_div_pow, BitVec.toNat_ofNat]
  match i with
  | 0 => simp; omega
  | 1 => simp; omega
  | 2 => simp; omega

/-- RES2 `map'` says of slot `i` what `map` says of slot `σ i`. -/
def MapPermuted (map map' : Word) : Prop :=
  ∀ i : Fin 3, map'.getLsbD i.val = map.getLsbD (σ i).val ∧
    map'.extractLsb' (8 + 2 * i.val) 2 = map.extractLsb' (8 + 2 * (σ i).val) 2

theorem mapPermuted_slotMapWord (good : Triple Bool) (role : Triple (Option Role)) :
    MapPermuted σ (slotMapWord good role) (slotMapWord (good.permute σ) (role.permute σ)) := by
  intro i
  simp only [slotMapWord_getLsbD, slotMapWord_extractLsb', Triple.get_permute, and_self]

theorem mapPermuted_emptySlotMap : MapPermuted σ emptySlotMap emptySlotMap := by
  have hconst {β : Type} (x : β) (i : Fin 3) : (Triple.mk x x x).get i = x := by
    match i with
    | 0 | 1 | 2 => rfl
  intro i
  simp only [emptySlotMap, slotMapWord_getLsbD, slotMapWord_extractLsb', hconst, and_self]

/-- The map of the slots goes with the slots. -/
theorem mapPermuted_slotMap (v : Triple Validation) : MapPermuted σ (slotMap v) (slotMap (v.permute σ)) := by
  unfold slotMap
  rw [classify_permute]
  cases classify v with
  | error c =>
    simp only [Except.map, Triple.map_permute]
    exact mapPermuted_slotMapWord σ _ _
  | ok role =>
    simp only [Except.map, Triple.map_permute]
    exact mapPermuted_slotMapWord σ _ _

theorem brokenWord_some_toNat (i : Fin 3) (r : Role) :
    (brokenWord (some (i, r))).toNat = 0x100 + 16 * roleCode (some r) + i.val := by
  have := roleCode_some_lt r
  rw [brokenWord, BitVec.toNat_ofNat, Nat.mod_eq_of_lt (by omega)]
  omega

theorem brokenWord_eq_zero_iff (b : Option (Fin 3 × Role)) : brokenWord b = 0 ↔ b = none := by
  cases b with
  | none => simp [brokenWord]
  | some p =>
    refine iff_of_false (fun h => ?_) (Option.some_ne_none p)
    have hzero : 0x100 + 16 * roleCode (some p.2) + p.1.val = 0 :=
      (brokenWord_some_toNat p.1 p.2).symm.trans (congrArg BitVec.toNat h)
    omega

/-- RES1 names slot `i` and a role code exactly when the broken block stands in slot `i` and has that role. -/
theorem brokenWord_toNat_eq_iff (b : Option (Fin 3 × Role)) (i : Fin 3) (code : Nat) :
    (brokenWord b).toNat = 0x100 + 16 * code + i.val ↔ ∃ r, b = some (i, r) ∧ roleCode (some r) = code := by
  cases b with
  | none => exact iff_of_false (by simp [brokenWord]; omega) (by simp)
  | some p =>
    obtain ⟨j, r⟩ := p
    rw [brokenWord_some_toNat]
    constructor
    · intro h
      exact ⟨r, by rw [Fin.ext (by omega : j.val = i.val)], by omega⟩
    · rintro ⟨r', h, rfl⟩
      cases h
      rfl

theorem brokenWord_permuteBroken_eq_zero_iff (b : Option (Fin 3 × Role)) :
    brokenWord (permuteBroken σ b) = 0 ↔ brokenWord b = 0 := by
  rw [brokenWord_eq_zero_iff, permuteBroken_eq_none_iff, brokenWord_eq_zero_iff]

theorem brokenWord_permuteBroken_toNat_eq_iff (b : Option (Fin 3 × Role)) (i : Fin 3) (code : Nat) :
    (brokenWord (permuteBroken σ b)).toNat = 0x100 + 16 * code + i.val ↔
      (brokenWord b).toNat = 0x100 + 16 * code + (σ i).val := by
  simp only [brokenWord_toNat_eq_iff, permuteBroken_eq_some_iff]

/-! ### DECODE on permuted slots (R181) -/

/-- What two DECODEs on slots permuted by `σ` have in common: the code, the writes, RES0 and RES3; RES1 and RES2 agree
at the permuted indices. -/
structure EffectsPermuted (e e' : Effect) : Prop where
  err : e'.err = e.err
  writes : e'.writes = e.writes
  results : ∃ r0 broken map map' r3, MapPermuted σ map map' ∧
    e.results = [(0, r0), (1, brokenWord broken), (2, map), (3, r3)] ∧
    e'.results = [(0, r0), (1, brokenWord (permuteBroken σ broken)), (2, map'), (3, r3)]

theorem effectsPermuted_decodeFailure (e : ErrCode) (c : Cause) {map map' : Word} (h : MapPermuted σ map map') :
    EffectsPermuted σ (decodeFailure e c map) (decodeFailure e c map') :=
  ⟨rfl, rfl, 0, none, map, map', BitVec.ofNat 32 (causeCode c), h, rfl, rfl⟩

/-- The destination's checks and the delivery. -/
theorem decodeDeliver_eq (s : State) (map : Word) (d : Decoded) :
    decodeDeliver (decodeOperands s) map d =
      if s.args[6].toNat + (d.lenA + d.lenB) > Config.dmemSize then decodeFailure .range .outOfRange map
      else if ∃ i, overlap s.args[6].toNat (d.lenA + d.lenB) (slotAddr s i) (slotLen s 0) then
        decodeFailure .overlap .overlapsSlot map
      else
        { writes := [(s.args[6].toNat, d.payload)]
          results := [(0, BitVec.ofNat 32 (d.lenA + d.lenB)), (1, brokenWord d.broken), (2, map), (3, 0)] } := by
  simp only [exists_slot_iff, gt_iff_lt, ← not_le]
  rfl

section SlotsPermuted
variable {σ} {s u : State} (hmem : u.dmem = s.dmem) (hdst : u.args[6] = s.args[6])
  (haddr : ∀ i, slotAddr u i = slotAddr s (σ i)) (hlen : ∀ i, slotLen u i = slotLen s (σ i))

include hmem haddr hlen in
theorem decodeSlots_permuted (hsame : ∀ i, slotLen s i = slotLen s 0) :
    decodeSlots u = (decodeSlots s).permute σ := by
  have hsameu (i : Fin 3) : slotLen u i = slotLen u 0 := by rw [hlen, hlen, hsame, hsame (σ 0)]
  refine Triple.ext_get fun i => ?_
  rw [Triple.get_permute, decodeSlots_get u hsameu, decodeSlots_get s hsame, slotBytes, slotBytes, hmem, haddr, hlen]

include hdst haddr hlen in
theorem effectsPermuted_decodeDeliver (hsame : ∀ i, slotLen s i = slotLen s 0) {map map' : Word}
    (hmap : MapPermuted σ map map') (d : Decoded) :
    EffectsPermuted σ (decodeDeliver (decodeOperands s) map d)
      (decodeDeliver (decodeOperands u) map' { d with broken := permuteBroken σ d.broken }) := by
  have hover : (∃ i, overlap s.args[6].toNat (d.lenA + d.lenB) (slotAddr u i) (slotLen s 0)) ↔
      ∃ i, overlap s.args[6].toNat (d.lenA + d.lenB) (slotAddr s i) (slotLen s 0) := by
    simp only [haddr]
    exact ⟨fun ⟨i, h⟩ => ⟨σ i, h⟩, fun ⟨i, h⟩ => ⟨σ.symm i, by rwa [σ.apply_symm_apply]⟩⟩
  rw [decodeDeliver_eq, decodeDeliver_eq, hdst, hlen 0, hsame (σ 0)]
  simp only [hover]
  split_ifs
  · exact effectsPermuted_decodeFailure σ _ _ hmap
  · exact effectsPermuted_decodeFailure σ _ _ hmap
  · exact ⟨rfl, rfl, _, _, _, _, _, hmap, rfl, rfl⟩

include hlen in
theorem slotLens_eq_iff_permuted : (∀ i, slotLen u i = slotLen u 0) ↔ ∀ i, slotLen s i = slotLen s 0 := by
  simp only [hlen]
  constructor
  · intro h i
    have hi := h (σ.symm i)
    have h0 := h (σ.symm 0)
    rw [σ.apply_symm_apply] at hi h0
    rw [hi, h0]
  · intro h i
    rw [h, h (σ 0)]

include hmem hdst haddr hlen in
/-- R181: DECODE's effect on permuted slots. -/
theorem effectsPermuted_decodeEffect : EffectsPermuted σ (decodeEffect s) (decodeEffect u) := by
  by_cases hdiffer : ¬ ∀ i, slotLen s i = slotLen s 0
  · rw [decodeEffect_of_lengthsDiffer hdiffer,
      decodeEffect_of_lengthsDiffer (mt (slotLens_eq_iff_permuted hlen).1 hdiffer)]
    exact effectsPermuted_decodeFailure σ _ _ (mapPermuted_emptySlotMap σ)
  have hsame := not_not.1 hdiffer
  have hsameu := (slotLens_eq_iff_permuted hlen).2 hsame
  by_cases hrange : ∃ i, slotAddr s i + slotLen s i > 65536
  · have hrangeu : ∃ i, slotAddr u i + slotLen u i > 65536 := by
      simp only [haddr, hlen]
      exact σ.surjective.exists.1 hrange
    rw [decodeEffect_of_outOfRange hsame hrange, decodeEffect_of_outOfRange hsameu hrangeu]
    exact effectsPermuted_decodeFailure σ _ _ (mapPermuted_emptySlotMap σ)
  simp only [not_exists, gt_iff_lt, not_lt] at hrange
  have hs : SlotsReadable s := ⟨hsame, hrange⟩
  have hu : SlotsReadable u := ⟨hsameu, fun i => by rw [haddr, hlen]; exact hrange (σ i)⟩
  have hmap := mapPermuted_slotMap σ ((decodeSlots s).map validateBlock)
  rw [decodeEffect_of_readable hs, decodeEffect_of_readable hu, decodeSlots_permuted hmem haddr hlen hsame,
    Triple.map_permute, decodeBlocks_permute, hlen 0, hsame (σ 0)]
  cases decodeBlocks (slotLen s 0) (decodeSlots s) with
  | error c => exact effectsPermuted_decodeFailure σ _ _ hmap
  | ok d => exact effectsPermuted_decodeDeliver hdst haddr hlen hsame hmap d

end SlotsPermuted
end Permute

/-- Settles O26: the two effects differ in RES1 and RES2 alone, and these by the permutation. -/
theorem decodeIsOrderIndependent : Obligations.DecodeIsOrderIndependent := by
  intro s u σ hmem hdst haddr hlen
  obtain ⟨herr, hwrites, r0, broken, map, map', r3, hmap, hres, hres'⟩ :=
    effectsPermuted_decodeEffect hmem hdst haddr hlen
  refine ⟨_, _, exec_eq_complete .decode s, exec_eq_complete .decode u, herr, ?_, ?_⟩
  · rw [State.complete_dmem, State.complete_dmem, hmem]
    exact congrArg _ hwrites
  · simp only [State.complete_res, commandEffect, hres, hres', writeResults_all]
    exact ⟨rfl, rfl, fun i => (hmap i).1, fun i => (hmap i).2, brokenWord_permuteBroken_eq_zero_iff σ broken,
      fun i code _ => brokenWord_permuteBroken_toNat_eq_iff σ broken i code⟩

end Sys2Proof.Machine
end

