-- ==== Sys2Proof/Proofs/Exceptions.lean ====
section
/-! PROOFS. Issue and completion, errors and the interrupt (60_exceptions.md): what a failing command leaves (R203),
SIZE_OVERFLOW (R201), the issue of a command (R205), its completion under any schedule without a reset (R206, R240), and
`irq` (R209). -/

namespace Sys2Proof.Machine

/-! ### Issue (R205) -/

/-- Settles O5: a write of CMD is the issue of its word, and CMD is a register that R241 holds. -/
theorem cmdWriteIssues : Obligations.CmdWriteIssues := by
  intro s offset w rest hn hb ho
  have hr : regAt offset = some .cmd := regAt_of_offset ho
  refine ⟨fun he => step_write_reg hn (holds_eq_false_of_idle he offset) hr hb, fun he => ?_⟩
  have hbusy : s.busy = true := Bool.eq_true_of_not_eq_false (mt s.busy_eq_false_iff.1 he)
  exact step_held hn hb (.inr ⟨w, rfl⟩) (holds_of_busy hbusy hr)

/-! ### Errors (R201, R203) -/

theorem causeCode_bounds (c : Cause) : 1 ≤ causeCode c ∧ causeCode c ≤ 6 := by
  cases c <;> decide

/-- RES2 has three good bits and three role codes, the last ending at bit 13 (41_codec.md R176). -/
theorem slotMapWord_lt (good : Triple Bool) (role : Triple (Option Role)) : (slotMapWord good role).toNat < 2 ^ 14 := by
  have hgood (i : Fin 3) : (good.get i).toNat < 2 := Bool.toNat_lt _
  have hrole (i : Fin 3) : roleCode (role.get i) ≤ 3 := roleCode_le _
  have := hgood 0
  have := hgood 1
  have := hgood 2
  have := hrole 0
  have := hrole 1
  have := hrole 2
  rw [slotMapWord_toNat]
  omega

theorem slotMap_lt (v : Triple Validation) : (slotMap v).toNat < 2 ^ 14 := by
  unfold slotMap
  cases classify v with
  | ok role => exact slotMapWord_lt _ _
  | error c => exact slotMapWord_lt _ _

/-- The effect is OK, or DECODE's report of a cause with a slot map of RES2's width. -/
def OkOrDecodeFailure (e : Effect) : Prop :=
  e.err = .ok ∨ ∃ code c map, map.toNat < 2 ^ 14 ∧ e = decodeFailure code c map

theorem okOrDecodeFailure_failure (code : ErrCode) (c : Cause) {map : Word} (h : map.toNat < 2 ^ 14) :
    OkOrDecodeFailure (decodeFailure code c map) := .inr ⟨code, c, map, h, rfl⟩

theorem okOrDecodeFailure_decodeDeliver (o : DecodeOperands) {map : Word} (h : map.toNat < 2 ^ 14) (d : Decoded) :
    OkOrDecodeFailure (decodeDeliver o map d) := by
  simp only [decodeDeliver]
  split
  · exact okOrDecodeFailure_failure _ _ h
  split
  · exact okOrDecodeFailure_failure _ _ h
  · exact .inl rfl

theorem okOrDecodeFailure_decodeEffect (s : State) : OkOrDecodeFailure (decodeEffect s) := by
  by_cases hlen : ∀ i, slotLen s i = slotLen s 0
  · by_cases hrange : ∃ i, slotAddr s i + slotLen s i > 65536
    · rw [decodeEffect_of_outOfRange hlen hrange]
      exact okOrDecodeFailure_failure _ _ (slotMapWord_lt _ _)
    · simp only [not_exists, not_lt] at hrange
      have hmap := slotMap_lt ((decodeSlots s).map validateBlock)
      rw [decodeEffect_of_readable ⟨hlen, hrange⟩]
      cases decodeBlocks (slotLen s 0) (decodeSlots s) with
      | error c => exact okOrDecodeFailure_failure _ _ hmap
      | ok d => exact okOrDecodeFailure_decodeDeliver _ hmap d
  · rw [decodeEffect_of_lengthsDiffer hlen]
    exact okOrDecodeFailure_failure _ _ (slotMapWord_lt _ _)

/-- What a failing DECODE leaves in the result registers (41_codec.md R180). -/
theorem res_of_failing_decode {s : State} (h : (decodeEffect s).err ≠ .ok) :
    ∃ c map, map.toNat < 2 ^ 14 ∧
      (s.complete (decodeEffect s)).res = #v[0, 0, map, BitVec.ofNat 32 (causeCode c)] := by
  obtain hok | ⟨code, c, map, hmap, he⟩ := okOrDecodeFailure_decodeEffect s
  · exact absurd hok h
  · exact ⟨c, map, hmap, he ▸ complete_decodeFailure_res s code c map⟩

/-- Settles O7: a sound effect with an error writes nothing, and lists results only when it is DECODE's. -/
theorem errorsHaveNoPartialEffect : Obligations.ErrorsHaveNoPartialEffect := by
  intro i s t h herr
  obtain rfl := (exec_next_iff i s t).1 h
  refine ⟨memSame_complete s _ ((commandEffect_sound i s).noWrites herr), fun hi => ?_, ?_⟩
  · rw [State.complete_res, commandEffect_noResults i s hi herr, writeResults_nil]
  · rintro rfl
    obtain ⟨c, map, hmap, hres⟩ := res_of_failing_decode herr
    obtain ⟨hlow, hhigh⟩ := causeCode_bounds c
    have hcode : (BitVec.ofNat 32 (causeCode c)).toNat = causeCode c := by
      rw [BitVec.toNat_ofNat]
      exact Nat.mod_eq_of_lt (by omega)
    simp only [commandEffect, hres]
    exact ⟨rfl, rfl, hmap, hlow.trans hcode.ge, hcode.le.trans hhigh⟩

/-- Settles O8: an ARG register has 32 bits, and every command's effect is sound. -/
theorem sizeOverflowIsUnreachable : Obligations.SizeOverflowIsUnreachable := by
  refine ⟨fun s => ?_, fun i s t h => ?_⟩
  · have h1 := s.args[1].isLt
    have h2 := s.args[2].isLt
    rw [Config.maxLen_val]
    omega
  · rw [(exec_next_iff i s t).1 h]
    exact (commandEffect_sound i s).reachable

/-! ### Completion under any schedule (R206, R240) -/

theorem State.hardwareReset_schedule_bus (s : State) :
    s.hardwareReset.schedule = s.schedule ∧ s.hardwareReset.bus = s.bus := by
  cases he : s.eng with
  | idle => rw [State.hardwareReset_of_idle he]; exact ⟨rfl, rfl⟩
  | busy w => rw [State.hardwareReset_of_busy he]; exact ⟨rfl, rfl⟩

theorem readReg_schedule_bus (offset : Word) (s : State) :
    (readReg offset s).2.schedule = s.schedule ∧ (readReg offset s).2.bus = s.bus := by
  rcases readReg_snd offset s with h | ⟨-, h⟩ <;> rw [h] <;> exact ⟨rfl, rfl⟩

theorem WriteEffect.schedule_bus {s t : State} {v : Word} {r : Reg} (h : WriteEffect s v r t) :
    t.schedule = s.schedule ∧ t.bus = s.bus := by
  cases h <;> exact ⟨rfl, rfl⟩

theorem writeReg_schedule_bus (offset v : Word) (s : State) :
    (writeReg offset v s).schedule = s.schedule ∧ (writeReg offset v s).bus = s.bus := by
  cases hr : regAt offset with
  | none => rw [writeReg_none hr]; exact ⟨rfl, rfl⟩
  | some r => rw [writeReg_of_regAt hr]; exact (writeEffect_writeAt s v r).schedule_bus

/-- A step takes one turn off the schedule and, at most, the first action off the host's program. -/
theorem step_schedule_bus {s t : State} (h : step s = .next t) :
    t.schedule = s.schedule.tail ∧ (t.bus = s.bus ∨ t.bus = s.bus.tail) := by
  rcases step_cases h with ⟨-, rfl⟩ | ⟨-, ⟨-, rfl⟩ | ⟨w, -, rfl⟩⟩ |
    ⟨-, rfl | ⟨op, rest, hb, ⟨-, -, rfl⟩ | ⟨offset, -, -, rfl⟩ | ⟨offset, v, -, -, rfl⟩⟩⟩
  · obtain ⟨hs, hb⟩ := (popped s).hardwareReset_schedule_bus
    exact ⟨hs, .inl hb⟩
  · exact ⟨rfl, .inl rfl⟩
  · exact ⟨rfl, .inl rfl⟩
  · exact ⟨rfl, .inl rfl⟩
  · exact ⟨rfl, .inr (by rw [hb]; rfl)⟩
  · obtain ⟨hs, hr⟩ := readReg_schedule_bus offset (consumed s rest)
    exact ⟨hs, .inr (hr.trans (by rw [hb]; rfl))⟩
  · obtain ⟨hs, hr⟩ := writeReg_schedule_bus offset v (consumed s rest)
    exact ⟨hs, .inr (hr.trans (by rw [hb]; rfl))⟩

theorem atOnce_eq_rst_iff (t : Turn) (s : State) : atOnce t s = .rst ↔ t = .rst := by
  cases t with
  | host => simp only [atOnce]; split <;> simp
  | engine => simp
  | rst => simp

theorem defaultTurn_ne_rst (s : State) : defaultTurn s ≠ .rst := by
  unfold defaultTurn
  split <;> simp

/-- The reset input moves only where the schedule names it. -/
theorem nextTurn_ne_rst {s : State} (h : Turn.rst ∉ s.schedule) : nextTurn s ≠ .rst := by
  rw [nextTurn, ne_eq, atOnce_eq_rst_iff]
  cases hs : s.schedule with
  | nil => exact defaultTurn_ne_rst s
  | cons t rest =>
    rintro rfl
    simp [hs] at h

/-- The host's turn answers a next state when its program has word accesses only (20_memory.md R60). -/
theorem step_next_of_wellFormed {s : State} (hwf : ∀ op ∈ s.bus, op.WellFormed) : ∃ t, step s = .next t := by
  cases h : step s with
  | next t => exact ⟨t, rfl⟩
  | fault r => cases r
  | refused r =>
    obtain ⟨-, -, op, rest, hb, hop⟩ := (onlyNarrowAccessesStop s r).1 h
    exact absurd (hwf op (by simp [hb])) hop

/-- The engine's turn completes the latched word, legal or not. -/
theorem run_one_completes {s : State} {w : Word} (he : s.eng = .busy w) (hn : nextTurn s = .engine) :
    ∃ t, Sys2Proof.core.run 1 s = .next t ∧ t.eng = .idle ∧ t.done = true :=
  ⟨_, run_succ ((step_engine hn he).trans (completeWord_eq w _)), rfl, rfl⟩

/-- The host's turn leaves a latched word latched. -/
theorem eng_of_host_step {s t : State} {w : Word} (he : s.eng = .busy w) (hn : nextTurn s = .host)
    (h : step s = .next t) : t.eng = .busy w := by
  by_contra hne
  obtain ⟨-, hturn | hturn⟩ := ends_of_leaves_busy h he (he ▸ hne) <;> simp [hn] at hturn

/-- Settles O9, by induction on the schedule: the engine's turn completes the command, the host's leaves it latched
and the schedule one turn shorter, and with no turn left the default is the engine's. -/
theorem issuedCommandsComplete : Obligations.IssuedCommandsComplete := by
  intro s w he hrst hwf
  induction hs : s.schedule generalizing s with
  | nil =>
    have hn : nextTurn s = .engine := by simp [nextTurn_of_nil hs, defaultTurn, s.busy_of_eng he]
    obtain ⟨t, ht⟩ := run_one_completes he hn
    exact ⟨1, t, by simp, ht⟩
  | cons turn rest ih =>
    cases hn : nextTurn s with
    | rst => exact absurd hn (nextTurn_ne_rst hrst)
    | engine =>
      obtain ⟨t, ht⟩ := run_one_completes he hn
      exact ⟨1, t, by simp, ht⟩
    | host =>
      obtain ⟨u, hu⟩ := step_next_of_wellFormed hwf
      obtain ⟨hsched, hbus⟩ := step_schedule_bus hu
      have hrest : u.schedule = rest := by rw [hsched, hs, List.tail_cons]
      have hrst' : Turn.rst ∉ u.schedule := fun hmem => hrst (List.mem_of_mem_tail (hsched ▸ hmem))
      have hwf' : ∀ op ∈ u.bus, op.WellFormed := by
        rcases hbus with hb | hb <;> rw [hb]
        · exact hwf
        · exact fun op hop => hwf op (List.mem_of_mem_tail hop)
      obtain ⟨k, t, hk, hrun, ht⟩ := ih u (eng_of_host_step he hn hu) hrst' hwf' hrest
      exact ⟨k + 1, t, by simpa using hk, (run_succ hu).trans hrun, ht⟩

/-! ### Interrupt (R209) -/

theorem irq_of_done_false {s : State} (h : s.done = false) : s.irq = false := by
  rw [State.irq, h, Bool.and_false]

theorem irq_of_ie_false {s : State} (h : s.ie = false) : s.irq = false := by
  rw [State.irq, h, Bool.false_and]

theorem done_writeStatus (s : State) {v : Word} (h : v.getLsbD 1 = true) : (s.writeStatus v).done = false := by
  cases hd : s.done with
  | false => rw [State.writeStatus_of_done_false hd, hd]
  | true => simp [State.writeStatus, h, hd]

/-- A CTRL write that is not the soft reset sets IE and nothing else (10_state.md R33). -/
theorem writeCtrl_of_bit1_false (s : State) {v : Word} (h : v.getLsbD 1 = false) :
    s.writeCtrl v = { s with ie := v.getLsbD 0 } := by
  rw [State.writeCtrl, h]
  rfl

/-- Settles O46: a completion sets DONE and keeps IE, and each of the four ways clears one of the two. -/
theorem interruptFollowsCompletion : Obligations.InterruptFollowsCompletion := by
  refine ⟨fun _ => rfl, fun i s t h => ?_, fun s v hv => irq_of_done_false (done_writeStatus s hv),
    fun _ _ => irq_of_done_false rfl, fun s v h0 h1 => ?_,
    fun s => ⟨irq_of_ie_false rfl, irq_of_ie_false (atReset_hardwareReset s).ie⟩⟩
  · rw [(exec_next_iff i s t).1 h]
    exact Bool.and_true s.ie
  · rw [writeCtrl_of_bit1_false s h1]
    exact ⟨irq_of_ie_false h0, rfl⟩

end Sys2Proof.Machine
end

