-- ==== Sys2Proof/Proofs/Reset.lean ====
section
/-! PROOFS. The resets as steps of the machine (70_reset_and_hazards.md section 1): the soft reset (R232), and the hardware
reset of an idle engine and of a busy one, whose command it aborts (R231, R233). -/

namespace Sys2Proof.Machine

/-! ### The soft reset (R232) -/

/-- A write to a register that R241 names is held while a command executes. -/
theorem step_write_held {s : State} {offset v : Word} {rest : List HostOp} {r : Reg} (hn : nextTurn s = .host)
    (he : s.eng ≠ .idle) (hr : regAt offset = some r) (hheld : heldReg r = true)
    (hb : s.bus = .wr .word offset v :: rest) : step s = .next (popped s) := by
  have hbusy : s.busy = true := Bool.eq_true_of_not_eq_false (mt s.busy_eq_false_iff.1 he)
  exact step_held hn hb (.inr ⟨v, rfl⟩) ((holds_of_busy hbusy hr).trans hheld)

theorem writeCtrl_of_bit1_true (s : State) {v : Word} (h : v.getLsbD 1 = true) : s.writeCtrl v = s.resetRegisters :=
  if_pos h

/-- Settles O48: CTRL is a register that R241 holds, and bit 1 chooses between the reset and IE. -/
theorem softReset : Obligations.SoftReset := by
  intro s offset v rest hn hb ho
  have hr : regAt offset = some .ctrl := regAt_of_offset ho
  have hwrite (he : s.eng = .idle) : step s = .next ((consumed s rest).writeCtrl v) :=
    step_write_reg hn (holds_eq_false_of_idle he offset) hr hb
  refine ⟨fun hv he => ?_, fun _ he => step_write_held hn he hr rfl hb, fun hv he => ?_⟩
  · rw [hwrite he, writeCtrl_of_bit1_true _ hv]
    rfl
  · rw [hwrite he, writeCtrl_of_bit1_false _ hv]
    rfl

/-! ### The hardware reset (R231, R233) -/

/-- Settles O49: with the engine idle, the hardware reset does what the soft reset does. -/
theorem hardwareResetWhileIdle : Obligations.HardwareResetWhileIdle := by
  intro s hn he
  rw [step_rst hn, State.hardwareReset_of_idle (s := popped s) he]
  rfl

@[simp] theorem wordEffect_popped (w : Word) (s : State) : wordEffect w (popped s) = wordEffect w s := by
  unfold wordEffect
  cases decode w with
  | ok i => exact commandEffect_popped i s
  | error e => rfl

@[simp] theorem abortedMemory_popped (w : Word) (s : State) : abortedMemory w (popped s) = abortedMemory w s := by
  simp [abortedMemory]

/-- A word that would write nothing leaves DMEM as it is when aborted (log 3). -/
theorem abortedMemory_of_writes_nil {w : Word} {s : State} (h : (wordEffect w s).writes = []) :
    abortedMemory w s = s.dmem := by
  rw [abortedMemory, h]
  rfl

/-- The hardware reset of a busy engine, whole: only DMEM is left to the aborted word. -/
theorem step_rst_of_busy {s : State} {w : Word} (hn : nextTurn s = .rst) (he : s.eng = .busy w) :
    step s = .next { State.reset with
      dmem := abortedMemory w s, bus := s.bus, reads := s.reads, schedule := s.schedule.tail, draws := s.draws + 1 } := by
  rw [step_rst hn, State.hardwareReset_of_busy (s := popped s) he, abortedMemory_popped]
  rfl

/-- Settles O50: an illegal word and a command that fails write nothing; any other command draws bytes only in the regions
of its completion. -/
theorem hardwareResetAbortsACommand : Obligations.HardwareResetAbortsACommand := by
  refine ⟨fun s w hn he hl => ?_, fun s w i hn he hd => ?_⟩
  · have hwrites : (wordEffect w s).writes = [] := by rw [wordEffect_of_illegal hl, raiseError]
    rw [step_rst_of_busy hn he, abortedMemory_of_writes_nil hwrites]
  · have heffect : wordEffect w s = commandEffect i s := wordEffect_of_decode hd s
    refine ⟨_, _, step_rst_of_busy hn he, exec_eq_complete i s, rfl, fun herr x => ?_, fun x hx => ?_⟩
    · have hwrites : (wordEffect w s).writes = [] := heffect ▸ (commandEffect_sound i s).noWrites herr
      exact congrArg (Memory.read · x) (abortedMemory_of_writes_nil hwrites)
    · exact read_abortedMemory_outside w s x (heffect ▸ hx)

end Sys2Proof.Machine
end
